-- ==== Sys2Proof/Config.lean ====
section
/-! DEFINITION. The implementation parameters of 00_scope.md R4, each at the value this hardware takes. The machine leaves no value open to a free choice (93_implementation_defined.md, end of section 2), so there is no opaque constant here. -/

namespace Sys2Proof

/-- MEM_WORDS: valid addresses are 0 to 32767 (R4, R30, R31). -/
abbrev Config.memWords : Nat := 32768

/-- VALUE_MOD: the modulus of `add` and `mult` (R4, R83, R84). -/
abbrev Config.valueMod : Nat := 32768

/-- NREGS: the number of general registers (R4, R11). -/
abbrev Config.nRegs : Nat := 8

/-- REG_BASE: the raw word REG_BASE + i names register i (R4, R48). -/
abbrev Config.regBase : Nat := 32768

/-- NOPCODES: opcode ids are 0 to 21, all assigned (R4, R53). -/
abbrev Config.nOpcodes : Nat := 22

/-- IN_CODE_MAX: the largest character code the input port delivers (R4, R115); the type `Byte` of an input code enforces it (log 5). -/
abbrev Config.inCodeMax : Nat := 255

end Sys2Proof
end

