-- ==== Sys2Proof/Word.lean ====
section
/-! DEFINITION. The machine's word types: the 16-bit word of every cell, register, stack entry and of the program counter, and the byte that memory is listed by. -/

namespace Sys2Proof

/-- A raw word: the 16-bit container of R7, and the width of a register, a stack entry and the program counter (R4, R11, R14, R17). All values are unsigned (R5). -/
abbrev Word := BitVec 16

/-- One byte of the list that memory is held as (log 1), and one character code of the input port (R115, log 5). -/
abbrev Byte := BitVec 8

/-- A word is canonical when it is in 0..32767, that is when bit 15 is 0 (R7). -/
abbrev Word.Canonical (w : Word) : Prop := w.toNat < 32768

end Sys2Proof
end

