-- ==== Sys2Proof/Syntax.lean ====
section
/-! DEFINITION. Instructions as syntax: the three readings of an operand word (R48) and one constructor of Instr per row of spec/opcode_table.json (R50). -/

namespace Sys2Proof

/-- A register number 0..7 (R11). -/
abbrev RegId := Fin Config.nRegs

/-- An operand word, read by its numeric range (R48). -/
inductive Operand where
  /-- 0..32767: a literal, bits 14 to 0 (R48, R57). -/
  | literal (v : BitVec 15)
  /-- 32768..32775: a register reference (R48). -/
  | register (r : RegId)
  /-- 32776..65535: invalid in every position; the raw word is kept because it is what is reported (R48, R52). -/
  | invalid (w : Word)
deriving DecidableEq, Repr

/-- The kind of an operand position (R49). -/
inductive OperandKind where
  /-- V: a value, obtained by ResolveValue (R61). -/
  | value
  /-- T: the register an instruction writes, obtained by ResolveTarget (R62). -/
  | target
  /-- D: the destination of `in`, the raw word inspected directly (R113). -/
  | destination
deriving DecidableEq, Repr

/-- The instructions, one constructor per row of the opcode map (R50), operands in encoding order.
An illegal operand word is part of the syntax: the instruction runs and raises (R51, R52). -/
inductive Instr where
  | halt
  | set (a b : Operand)
  | push (a : Operand)
  | pop (a : Operand)
  | eq (a b c : Operand)
  | gt (a b c : Operand)
  | jmp (a : Operand)
  | jt (a b : Operand)
  | jf (a b : Operand)
  | add (a b c : Operand)
  | mult (a b c : Operand)
  | mod (a b c : Operand)
  | and (a b c : Operand)
  | or (a b c : Operand)
  | not (a b : Operand)
  | rmem (a b : Operand)
  | wmem (a b : Operand)
  | call (a : Operand)
  | ret
  | out (a : Operand)
  /-- The row `in` (`in` is a word of Lean). -/
  | inp (a : Operand)
  | noop
deriving DecidableEq, Repr

/-- The operands of an instruction in encoding order (R45). -/
def Instr.operands : Instr → List Operand
  | .halt => []
  | .set a b => [a, b]
  | .push a => [a]
  | .pop a => [a]
  | .eq a b c => [a, b, c]
  | .gt a b c => [a, b, c]
  | .jmp a => [a]
  | .jt a b => [a, b]
  | .jf a b => [a, b]
  | .add a b c => [a, b, c]
  | .mult a b c => [a, b, c]
  | .mod a b c => [a, b, c]
  | .and a b c => [a, b, c]
  | .or a b c => [a, b, c]
  | .not a b => [a, b]
  | .rmem a b => [a, b]
  | .wmem a b => [a, b]
  | .call a => [a]
  | .ret => []
  | .out a => [a]
  | .inp a => [a]
  | .noop => []

/-- The kinds of an instruction's operand positions, column "kinds" of the opcode map (R49, R50). -/
def Instr.kinds : Instr → List OperandKind
  | .halt => []
  | .set _ _ => [.target, .value]
  | .push _ => [.value]
  | .pop _ => [.target]
  | .eq _ _ _ => [.target, .value, .value]
  | .gt _ _ _ => [.target, .value, .value]
  | .jmp _ => [.value]
  | .jt _ _ => [.value, .value]
  | .jf _ _ => [.value, .value]
  | .add _ _ _ => [.target, .value, .value]
  | .mult _ _ _ => [.target, .value, .value]
  | .mod _ _ _ => [.target, .value, .value]
  | .and _ _ _ => [.target, .value, .value]
  | .or _ _ _ => [.target, .value, .value]
  | .not _ _ => [.target, .value]
  | .rmem _ _ => [.target, .value]
  | .wmem _ _ => [.value, .value]
  | .call _ => [.value]
  | .ret => []
  | .out _ => [.value]
  | .inp _ => [.destination]
  | .noop => []

end Sys2Proof
end

