-- ==== Sys2Proof/Machine/State.lean ====
section
/-! DEFINITION. The machine's state as plain data (10_state.md R10, R20, R21), its reset value (R23), and the reasons a step can stop. -/

namespace Sys2Proof.Machine

/-- The fatal conditions (R20 codes 4 to 8, R120). Each is raised as a next state (R128, log 10). -/
inductive Fatal where
  /-- Opcode word above 21; the dispatcher (R121). -/
  | undefinedOpcode
  /-- Value operand word 32776 or more; ResolveValue (R122). -/
  | invalidInstruction
  /-- Target operand word outside 32768..32775; ResolveTarget (R123). -/
  | invalidRegisterAddress
  /-- A memory address above 32767 used; FetchRaw, rmem, wmem, in (R124). -/
  | invalidAddress
  /-- `mod` with a zero divisor (R125). -/
  | moduloByZero
deriving DecidableEq, Repr

/-- The terminal status, the only control state (R20). -/
inductive Status where
  /-- READY: reset or loaded, not started. -/
  | ready
  /-- RUNNING: the dispatcher loop is taking steps. -/
  | running
  /-- HALTED: a `halt` was executed. -/
  | halted
  /-- HALTED_UNDERFLOW: `pop` or `ret` found the stack empty. -/
  | haltedUnderflow
  /-- One of the fatal statuses. -/
  | fatal (k : Fatal)
deriving DecidableEq, Repr

/-- Memory as a list of (byte address, byte) pairs in one canonical form: addresses strictly rising, no byte 0 listed,
an unlisted byte reads 0 (R23). The 16-bit cell at address a is the bytes 2a (low) and 2a+1 (high): a way of holding
the cell, which no instruction can see (R34, log 1). -/
abbrev Memory := List Host.Cell

/-- The whole state (R10), with the histories at the three ports: the output history and the input sequence (R21),
and the events of the fetch trace (R70). -/
structure State where
  /-- Memory, 32768 cells (R18). -/
  mem : Memory
  /-- The register bank (R11). -/
  x : Vector Word Config.nRegs
  /-- The program counter, a cell address; it may rest above 32767 (R14, R16). -/
  pc : Word
  /-- The stack, unbounded, its TOP at the head of the list (R17, R95, log 9). -/
  stack : List Word
  /-- The terminal status (R20). -/
  status : Status
  /-- The offending word or address of a fatal status; unspecified in any other status (R20). -/
  faultValue : Word
  /-- The output history, oldest first (R21, R114). -/
  output : List Word
  /-- The input sequence: the codes the host will deliver, next first (R21, R115). -/
  input : List Byte
  /-- The fetch trace, oldest event first: address and raw word of each successful fetch (R70). -/
  trace : List (Word × Word)
deriving DecidableEq, Repr

/-- The machine right after Create (R23). `faultValue` is unspecified there and `input` is the host's: the values stand in log 2 and log 5. -/
def State.reset : State where
  mem := []
  x := Vector.replicate Config.nRegs 0
  pc := 0
  stack := []
  status := .ready
  faultValue := 0
  output := []
  input := []
  trace := []

/-- Why a step would stop with no next state. No constructor: every event that ends a run is a state change the spec
describes (R126, R128), so the model takes it as a next state (log 10). -/
inductive Fault where
deriving DecidableEq, Repr

/-- Why a step would be refused. -/
inductive Refusal where
  /-- Raised by no arm of `exec` any more: kept for an instruction without a meaning. Safe: nothing can be proved about what it does. -/
  | notModelled (mnemonic : String)
deriving DecidableEq, Repr

/-- The outcome of a step or of a meaning. -/
abbrev Result := Host.Outcome State Fault Refusal

end Sys2Proof.Machine
end

