-- ==== Sys2Proof/Machine/Flags.lean ====
section
/-! DEFINITION. The machine has no flags (10_state.md R19): conditions are the 1 or 0 that eq and gt write to a register, and the test for zero of jt and jf. -/

namespace Sys2Proof.Machine

/-- 1 or 0, never another value (R81, R82). -/
def boolWord (b : Bool) : Word := if b then 1 else 0

/-- The result of `eq`: the two 16-bit values compared on all bits (R81). -/
def condEq (b c : Word) : Word := boolWord (decide (b = c))

/-- The result of `gt`: unsigned and strict (R82). -/
def condGt (b c : Word) : Word := boolWord (decide (c.toNat < b.toNat))

/-- The test of `jt`, whose complement is the test of `jf`: any of the 16 bits set (R99, R100). -/
def isNonzero (a : Word) : Bool := decide (a ≠ 0)

end Sys2Proof.Machine
end

