-- ==== Sys2Proof/WellFormed.lean ====
section
/-! DEFINITION. Which terms of Instr stand for words (WellFormed), and which of those a static decoder calls legal (R51). -/

namespace Sys2Proof

/-- An operand stands for exactly one word when an `invalid` one carries a word of the invalid range 32776..65535 (R48). -/
def Operand.wellFormed : Operand → Bool
  | .literal _ => true
  | .register _ => true
  | .invalid w => decide (Config.regBase + Config.nRegs ≤ w.toNat)

/-- Every operand of the instruction is well formed. -/
def Instr.wellFormed (i : Instr) : Bool := i.operands.all Operand.wellFormed

/-- The instruction is one the decoder can answer. Illegal words in an operand position do not make it ill formed (R51). -/
abbrev Instr.WellFormed (i : Instr) : Prop := i.wellFormed = true

/-- Which words are legal in a position of each kind, the table of R49. -/
def OperandKind.legal : OperandKind → Operand → Bool
  | .value, .literal _ => true
  | .value, .register _ => true
  | .value, .invalid _ => false
  | .target, .literal _ => false
  | .target, .register _ => true
  | .target, .invalid _ => false
  | .destination, .literal _ => true
  | .destination, .register _ => true
  | .destination, .invalid _ => false

/-- The static check of R51: every operand word is legal for its kind. -/
def Instr.legal (i : Instr) : Bool := (i.kinds.zip i.operands).all (fun p => p.1.legal p.2)

end Sys2Proof
end

