-- ==== Sys2Proof/Decode.lean ====
section
/-! DEFINITION. Decoding of words (30_encoding.md R45 to R51), total and rejecting by name, and after it the encoder, both written from the opcode map R50. -/

namespace Sys2Proof

/-- Why a sequence of words is no instruction. -/
inductive DecodeError where
  /-- The opcode word is above 21 (R46, R52). -/
  | undefinedOpcode (w : Word)
  /-- There are fewer words than the opcode's format asks for (R47). -/
  | truncated
deriving DecidableEq, Repr

/-- The outcome of decoding: an instruction and the words after it, or a rejection by name. -/
abbrev Decoded := Except DecodeError (Instr × List Word)

/-- The meaning of a raw operand word by its numeric range (R48): below 32768 the literal `bits[14:0]`, then eight register references, then invalid. -/
def classify (w : Word) : Operand :=
  if w.toNat < Config.regBase then .literal (w.setWidth 15)
  else if h : w.toNat < Config.regBase + Config.nRegs then
    .register ⟨w.toNat - Config.regBase, by simp only [Config.regBase, Config.nRegs] at h ⊢; omega⟩
  else .invalid w

/-- Format F0: no operand word (R47). -/
def decodeF0 (i : Instr) (ws : List Word) : Decoded := .ok (i, ws)

/-- Format F1: one operand word (R47). -/
def decodeF1 (mk : Operand → Instr) : List Word → Decoded
  | a :: ws => .ok (mk (classify a), ws)
  | _ => .error .truncated

/-- Format F2: two operand words (R47). -/
def decodeF2 (mk : Operand → Operand → Instr) : List Word → Decoded
  | a :: b :: ws => .ok (mk (classify a) (classify b), ws)
  | _ => .error .truncated

/-- Format F3: three operand words (R47). -/
def decodeF3 (mk : Operand → Operand → Operand → Instr) : List Word → Decoded
  | a :: b :: c :: ws => .ok (mk (classify a) (classify b) (classify c), ws)
  | _ => .error .truncated

/-- Read one instruction off the front of a list of words: the whole opcode word is compared with the ids 0 to 21 (R46, R50). -/
def decode : List Word → Decoded
  | [] => .error .truncated
  | op :: ws =>
    match op.toNat with
    | 0 => decodeF0 .halt ws
    | 1 => decodeF2 .set ws
    | 2 => decodeF1 .push ws
    | 3 => decodeF1 .pop ws
    | 4 => decodeF3 .eq ws
    | 5 => decodeF3 .gt ws
    | 6 => decodeF1 .jmp ws
    | 7 => decodeF2 .jt ws
    | 8 => decodeF2 .jf ws
    | 9 => decodeF3 .add ws
    | 10 => decodeF3 .mult ws
    | 11 => decodeF3 .mod ws
    | 12 => decodeF3 .and ws
    | 13 => decodeF3 .or ws
    | 14 => decodeF2 .not ws
    | 15 => decodeF2 .rmem ws
    | 16 => decodeF2 .wmem ws
    | 17 => decodeF1 .call ws
    | 18 => decodeF0 .ret ws
    | 19 => decodeF1 .out ws
    | 20 => decodeF1 .inp ws
    | 21 => decodeF0 .noop ws
    | _ => .error (.undefinedOpcode op)

/-- The word made of a low and a high byte: `byte[2i] + 256 * byte[2i + 1]` (R34). -/
def wordOfBytes (low high : Byte) : Word := high ++ low

/-- The low byte of a word, the one that comes first (R34). -/
def lowByte (w : Word) : Byte := w.setWidth 8

/-- The high byte of a word, the one that comes second (R34). -/
def highByte (w : Word) : Byte := w.extractLsb' 8 8

/-- The words of a program file's bytes (R34). A last odd byte has no word: what the loader does with it is the host's (R4, LOADER_ODD_BYTE). -/
def wordsOfBytes : List Byte → List Word
  | low :: high :: bs => wordOfBytes low high :: wordsOfBytes bs
  | _ => []

/-- Decoding is total on any bytes. -/
def decodeBytes (bs : List Byte) : Decoded := decode (wordsOfBytes bs)

/-- The words of an instruction given as one number: bit 0 is the least significant bit of the first word, and each next word's bits count on from it; `n` words. -/
def wordsOfNumber : Nat → Nat → List Word
  | 0, _ => []
  | n + 1, w => BitVec.ofNat 16 w :: wordsOfNumber n (w / 65536)

/-- The words that an opcode-table row of `nbits` bits and value `w` stands for: four words, the longest instruction (R45), every bit above `nbits` zero. -/
def tableWords (nbits w : Nat) : List Word := wordsOfNumber 4 (w % 2 ^ nbits)

/-- The instruction `decode` reads from an opcode-table word; none where it refuses. -/
def decodeTableWord (nbits w : Nat) : Option Instr :=
  match decode (tableWords nbits w) with
  | .ok (i, _) => some i
  | .error _ => none

/-- The raw word of an operand: a literal is its own number, register i is 32768 + i (R48). -/
def Operand.toWord : Operand → Word
  | .literal v => v.setWidth 16
  | .register r => BitVec.ofNat 16 (Config.regBase + r.val)
  | .invalid w => w

/-- The opcode word of an instruction, column "id" of the opcode map (R50). -/
def Instr.opcode : Instr → Word
  | .halt => 0
  | .set _ _ => 1
  | .push _ => 2
  | .pop _ => 3
  | .eq _ _ _ => 4
  | .gt _ _ _ => 5
  | .jmp _ => 6
  | .jt _ _ => 7
  | .jf _ _ => 8
  | .add _ _ _ => 9
  | .mult _ _ _ => 10
  | .mod _ _ _ => 11
  | .and _ _ _ => 12
  | .or _ _ _ => 13
  | .not _ _ => 14
  | .rmem _ _ => 15
  | .wmem _ _ => 16
  | .call _ => 17
  | .ret => 18
  | .out _ => 19
  | .inp _ => 20
  | .noop => 21

/-- The words of an instruction: the opcode word, then its operand words in order (R45). -/
def encode (i : Instr) : List Word := i.opcode :: i.operands.map Operand.toWord

/-- The number of words of an instruction by its opcode alone, the table of R47; none for an undefined opcode, which has no length. -/
def formatWords (op : Word) : Option Nat :=
  match op.toNat with
  | 0 => some 1
  | 1 => some 3
  | 2 => some 2
  | 3 => some 2
  | 4 => some 4
  | 5 => some 4
  | 6 => some 2
  | 7 => some 3
  | 8 => some 3
  | 9 => some 4
  | 10 => some 4
  | 11 => some 4
  | 12 => some 4
  | 13 => some 4
  | 14 => some 3
  | 15 => some 3
  | 16 => some 3
  | 17 => some 2
  | 18 => some 1
  | 19 => some 2
  | 20 => some 2
  | 21 => some 1
  | _ => none

end Sys2Proof
end

