-- ==== Sys2Proof/Machine/Ops.lean ====
section
/-! DEFINITION. The named operations over memory, registers, stack, ports and status; taking a fatal condition (R128); the host's operations (R140 to R142, R115). -/

namespace Sys2Proof.Machine

/-- The byte at a byte address; an unlisted byte is 0, the reset content (R23). -/
def Memory.readByte (m : Memory) (a : Nat) : Byte :=
  match m with
  | [] => 0
  | c :: rest => if c.1 = a then c.2 else Memory.readByte rest a

/-- Memory with no entry at a byte address. -/
def Memory.eraseByte (m : Memory) (a : Nat) : Memory := m.filter (fun c => c.1 != a)

/-- Put an entry before the first one of a higher address. -/
def Memory.insertByte (m : Memory) (a : Nat) (v : Byte) : Memory :=
  match m with
  | [] => [(a, v)]
  | c :: rest => if a < c.1 then (a, v) :: c :: rest else c :: Memory.insertByte rest a v

/-- Write a byte, keeping the canonical form: writing 0, what an unlisted byte reads as, removes the entry. -/
def Memory.writeByte (m : Memory) (a : Nat) (v : Byte) : Memory :=
  if v = 0 then m.eraseByte a else (m.eraseByte a).insertByte a v

/-- The 16-bit content of the cell at address `a` (R32, R36). -/
def Memory.readCell (m : Memory) (a : Nat) : Word := wordOfBytes (m.readByte (2 * a)) (m.readByte (2 * a + 1))

/-- Change the one cell at address `a` and nothing else (R32). -/
def Memory.writeCell (m : Memory) (a : Nat) (v : Word) : Memory :=
  (m.writeByte (2 * a) (lowByte v)).writeByte (2 * a + 1) (highByte v)

/-- The canonical form: addresses strictly rising, no byte 0 listed, every address inside the 32768 cells. -/
def Memory.wf (m : Memory) : Bool :=
  decide (m.Pairwise (fun c d => c.1 < d.1)) && m.all (fun c => decide (c.1 < 2 * Config.memWords) && decide (c.2 ≠ 0))

/-- `x[r]`, all 16 bits; no register is hardwired (R6, R11). -/
def State.reg (s : State) (r : RegId) : Word := s.x[r]

/-- `x[r] <- v` (R6). -/
def State.writeReg (s : State) (r : RegId) (v : Word) : State := { s with x := s.x.set r v }

/-- `pc <- t`: any 16-bit value is accepted (R105). -/
def State.jump (s : State) (t : Word) : State := { s with pc := t }

/-- `Push(v)`: never fails (R95). -/
def State.push (s : State) (v : Word) : State := { s with stack := v :: s.stack }

/-- `Pop()`: the most recently pushed entry and the state without it; none when the stack is empty (R95). -/
def State.popped? (s : State) : Option (Word × State) :=
  match s.stack with
  | [] => none
  | v :: rest => some (v, { s with stack := rest })

/-- `Emit(v)`: the whole 16-bit code goes to the output history (R114). -/
def State.emit (s : State) (v : Word) : State := { s with output := s.output ++ [v] }

/-- The half of `InputChar()` that takes a character: the next code, zero-extended to 16 bits, and the state without it;
none when the host has delivered no character, and the core waits (R115). -/
def State.takeChar? (s : State) : Option (Word × State) :=
  match s.input with
  | [] => none
  | ch :: rest => some (ch.setWidth 16, { s with input := rest })

/-- `status <- S` for the two successful ends HALTED and HALTED_UNDERFLOW; `fault_value` is not written (R110, R126). -/
def State.endRun (s : State) (st : Status) : State := { s with status := st }

/-- The state that `raise K(info)` leaves: `status <- K`, `fault_value <- info`, all else as it is (R128). -/
def State.faulted (s : State) (k : Fatal) (info : Word) : State := { s with status := .fatal k, faultValue := info }

/-- TAKING A FATAL CONDITION, the one shared operation: `raise K(info)` ends the step there (R128). There is no vector,
no saved pc and no mode, and no instruction returns from it (R132): the way out is `State.create` below. -/
def raise (k : Fatal) (info : Word) (s : State) : Result := .next (s.faulted k info)

/-- `MemRead(addr, 1)`: a bad address is raised, else the cell goes to `k` (R32). -/
def memRead (addr : Word) (s : State) (k : Word → Result) : Result :=
  if addr.toNat < Config.memWords then k (s.mem.readCell addr.toNat) else raise .invalidAddress addr s

/-- The state after a data write of `v` to a valid cell (R32). -/
def State.writeMem (s : State) (addr v : Word) : State := { s with mem := s.mem.writeCell addr.toNat v }

/-- `MemWrite(addr, 1, v)` as an instruction's last act: a bad address is raised and nothing is written (R32). -/
def memWrite (addr v : Word) (s : State) : Result :=
  if addr.toNat < Config.memWords then .next (s.writeMem addr v) else raise .invalidAddress addr s

/-- `Create`: the reset, in any status (R140), and so the only return from a terminal status (R132). The characters
still to be delivered are the host's and stay (R21). -/
def State.create (s : State) : State := { State.reset with input := s.input }

/-- Copy words into consecutive cells from address `a` (R141). -/
def Memory.loadFrom (m : Memory) (a : Nat) (image : List Word) : Memory :=
  match image with
  | [] => m
  | w :: rest => Memory.loadFrom (m.writeCell a w) (a + 1) rest

/-- Why `Load` is not carried out; nothing is changed. -/
inductive LoadRefusal where
  /-- `LoadError`: the image has more than 32768 words (R127, R141). -/
  | loadError
  /-- The status is not READY (R141). -/
  | notReady
deriving DecidableEq, Repr

/-- `Load(image)`: accepted only in READY; copies the image from address 0 and sets pc to 0 (R24, R141). -/
def State.load (image : List Word) (s : State) : Except LoadRefusal State :=
  if s.status ≠ .ready then .error .notReady
  else if Config.memWords < image.length then .error .loadError
  else .ok { s with mem := s.mem.loadFrom 0 image, pc := 0 }

/-- `Run`: READY becomes RUNNING; in any other status it does nothing (R142). -/
def State.run (s : State) : State := if s.status = .ready then { s with status := .running } else s

/-- The host delivers one more character code at the input port (R115, R149). -/
def State.deliver (ch : Byte) (s : State) : State := { s with input := s.input ++ [ch] }

/-- The numeric code the host reads (R20). -/
def Status.code : Status → BitVec 4
  | .ready => 0
  | .running => 1
  | .halted => 2
  | .haltedUnderflow => 3
  | .fatal .undefinedOpcode => 4
  | .fatal .invalidInstruction => 5
  | .fatal .invalidRegisterAddress => 6
  | .fatal .invalidAddress => 7
  | .fatal .moduloByZero => 8

end Sys2Proof.Machine
end

