-- ==== Sys2Proof/Machine/Operands.lean ====
section
/-! DEFINITION. FetchRaw, ResolveValue, ResolveTarget (40_fetch_dispatch.md R60 to R62), each taking what is done next as its last argument. -/

namespace Sys2Proof.Machine

/-- The state after the successful fetch of the raw word `w` at pc: the counter goes up by one and the trace gets its event (R60, R70). -/
def State.fetched (s : State) (w : Word) : State := { s with pc := s.pc + 1, trace := s.trace ++ [(s.pc, w)] }

/-- `FetchRaw()` where the cell at pc holds `w`: above 32767 the fetch is raised with pc unchanged (R60). The word itself
is read by `fetchWindow` before the instruction runs, which no write can come between (R38, R65). -/
def withFetch (w : Word) (s : State) (k : State → Result) : Result :=
  if s.pc.toNat < Config.memWords then k (s.fetched w) else raise .invalidAddress s.pc s

/-- The value of an operand word: the literal, or all 16 bits of the register; none for an invalid word (R61). -/
def operandValue? (o : Operand) (s : State) : Option Word :=
  match o with
  | .literal v => some (v.setWidth 16)
  | .register r => some (s.reg r)
  | .invalid _ => none

/-- The register a target word names; none for any other word (R62). -/
def operandTarget? (o : Operand) : Option RegId :=
  match o with
  | .literal _ => none
  | .register r => some r
  | .invalid _ => none

/-- `ResolveValue()`: fetch the word, then classify it and read the register it names (R61, R64). -/
def withValue (o : Operand) (s : State) (k : Word → State → Result) : Result :=
  withFetch o.toWord s fun s' =>
    match operandValue? o s' with
    | some v => k v s'
    | none => raise .invalidInstruction o.toWord s'

/-- `ResolveTarget()`: fetch the word, which must name a register (R62). -/
def withTarget (o : Operand) (s : State) (k : RegId → State → Result) : Result :=
  withFetch o.toWord s fun s' =>
    match operandTarget? o with
    | some r => k r s'
    | none => raise .invalidRegisterAddress o.toWord s'

end Sys2Proof.Machine
end

