-- ==== Sys2Proof/Machine/Alu.lean ====
section
/-! DEFINITION. The arithmetic and logic unit (42_alu.md R80 to R89), and the meanings of eq, gt, add, mult, mod, and, or, not. -/

namespace Sys2Proof.Machine

/-- `(b + c) mod 32768`, the sum formed without loss (R83). -/
def aluAdd (b c : Word) : Word := BitVec.ofNat 16 ((b.toNat + c.toNat) % Config.valueMod)

/-- `(b * c) mod 32768` of the full product (R84). -/
def aluMult (b c : Word) : Word := BitVec.ofNat 16 ((b.toNat * c.toNat) % Config.valueMod)

/-- The unsigned remainder for `c ≠ 0` (R85); the zero divisor is raised before it is used. -/
def aluMod (b c : Word) : Word := BitVec.ofNat 16 (b.toNat % c.toNat)

/-- `b & c` over 16 bits (R86). -/
def aluAnd (b c : Word) : Word := b &&& c

/-- `b | c` over 16 bits (R87). -/
def aluOr (b c : Word) : Word := b ||| c

/-- `(~b) & 0x7FFF` (R88). -/
def aluNot (b : Word) : Word := ~~~b &&& 0x7FFF

/-- The shape the three-operand instructions share: target, value, value, and then what is done with them (R80). -/
def threeOperands (op : Word) (a b c : Operand) (s : State) (k : RegId → Word → Word → State → Result) : Result :=
  withFetch op s fun s => withTarget a s fun r s => withValue b s fun vb s => withValue c s fun vc s => k r vb vc s

/-- `eq a b c` (R81). -/
def execEq (a b c : Operand) (s : State) : Result :=
  threeOperands 4 a b c s fun r vb vc s => .next (s.writeReg r (condEq vb vc))

/-- `gt a b c` (R82). -/
def execGt (a b c : Operand) (s : State) : Result :=
  threeOperands 5 a b c s fun r vb vc s => .next (s.writeReg r (condGt vb vc))

/-- `add a b c` (R83). -/
def execAdd (a b c : Operand) (s : State) : Result :=
  threeOperands 9 a b c s fun r vb vc s => .next (s.writeReg r (aluAdd vb vc))

/-- `mult a b c` (R84). -/
def execMult (a b c : Operand) (s : State) : Result :=
  threeOperands 10 a b c s fun r vb vc s => .next (s.writeReg r (aluMult vb vc))

/-- `mod a b c`: the zero divisor is raised with the dividend, after all operands (R85, R125). -/
def execMod (a b c : Operand) (s : State) : Result :=
  threeOperands 11 a b c s fun r vb vc s =>
    if vc = 0 then raise .moduloByZero vb s else .next (s.writeReg r (aluMod vb vc))

/-- `and a b c` (R86). -/
def execAnd (a b c : Operand) (s : State) : Result :=
  threeOperands 12 a b c s fun r vb vc s => .next (s.writeReg r (aluAnd vb vc))

/-- `or a b c` (R87). -/
def execOr (a b c : Operand) (s : State) : Result :=
  threeOperands 13 a b c s fun r vb vc s => .next (s.writeReg r (aluOr vb vc))

/-- `not a b` (R88). -/
def execNot (a b : Operand) (s : State) : Result :=
  withFetch 14 s fun s => withTarget a s fun r s => withValue b s fun vb s => .next (s.writeReg r (aluNot vb))

end Sys2Proof.Machine
end

