-- ==== Sys2Proof/Machine/DataMove.lean ====
section
/-! DEFINITION. The meanings of set, rmem, wmem (41_data_move.md R75 to R77). -/

namespace Sys2Proof.Machine

/-- `set a b` (R75). -/
def execSet (a b : Operand) (s : State) : Result :=
  withFetch 1 s fun s => withTarget a s fun r s => withValue b s fun vb s => .next (s.writeReg r vb)

/-- `rmem a b`: the whole cell at the value of `b`, not reduced (R76). -/
def execRmem (a b : Operand) (s : State) : Result :=
  withFetch 15 s fun s => withTarget a s fun r s => withValue b s fun vb s =>
    memRead vb s fun v => .next (s.writeReg r v)

/-- `wmem a b`: both operands are values, the first the address (R77). -/
def execWmem (a b : Operand) (s : State) : Result :=
  withFetch 16 s fun s => withValue a s fun va s => withValue b s fun vb s => memWrite va vb s

end Sys2Proof.Machine
end

