-- ==== Sys2Proof/Machine/StackControl.lean ====
section
/-! DEFINITION. The meanings of push, pop, jmp, jt, jf, call, ret (43_stack_control.md R96 to R102). -/

namespace Sys2Proof.Machine

/-- `push a` (R96). -/
def execPush (a : Operand) (s : State) : Result :=
  withFetch 2 s fun s => withValue a s fun va s => .next (s.push va)

/-- `pop a`: the target is checked before the stack; an empty stack is the graceful halt (R97, R126). -/
def execPop (a : Operand) (s : State) : Result :=
  withFetch 3 s fun s => withTarget a s fun r s =>
    match s.popped? with
    | some (v, s) => .next (s.writeReg r v)
    | none => .next (s.endRun .haltedUnderflow)

/-- `jmp a` (R98). -/
def execJmp (a : Operand) (s : State) : Result :=
  withFetch 6 s fun s => withValue a s fun va s => .next (s.jump va)

/-- `jt a b`: the target is resolved whether or not the jump is taken (R66, R99). -/
def execJt (a b : Operand) (s : State) : Result :=
  withFetch 7 s fun s => withValue a s fun va s => withValue b s fun vb s =>
    .next (if isNonzero va then s.jump vb else s)

/-- `jf a b` (R66, R100). -/
def execJf (a b : Operand) (s : State) : Result :=
  withFetch 8 s fun s => withValue a s fun va s => withValue b s fun vb s =>
    .next (if isNonzero va then s else s.jump vb)

/-- `call a`: the return address p + 2 is noted before the operand is resolved, and pushed after (R101). -/
def execCall (a : Operand) (s : State) : Result :=
  withFetch 17 s fun s =>
    let ra := s.pc + 1
    withValue a s fun va s => .next ((s.push ra).jump va)

/-- `ret`: an empty stack is the graceful halt with pc at p + 1 (R102, R126). -/
def execRet (s : State) : Result :=
  withFetch 18 s fun s =>
    match s.popped? with
    | some (v, s) => .next (s.jump v)
    | none => .next (s.endRun .haltedUnderflow)

end Sys2Proof.Machine
end

