-- ==== Sys2Proof/Machine/SystemIO.lean ====
section
/-! DEFINITION. The meanings of halt, noop, out, in (44_io_system.md R110 to R115). -/

namespace Sys2Proof.Machine

/-- `halt` (R110). -/
def execHalt (s : State) : Result := withFetch 0 s fun s => .next (s.endRun .halted)

/-- `noop` (R111). -/
def execNoop (s : State) : Result := withFetch 21 s fun s => .next s

/-- `out a` (R112). -/
def execOut (a : Operand) (s : State) : Result :=
  withFetch 19 s fun s => withValue a s fun va s => .next (s.emit va)

/-- The write of `in`: the register its destination word names, or else the cell whose address is the word itself; a word
of 32776 or more is a bad address (R113). -/
def writeDestination (a : Operand) (ch : Word) (s : State) : Result :=
  match a with
  | .register r => .next (s.writeReg r ch)
  | .literal v => memWrite (v.setWidth 16) ch s
  | .invalid w => raise .invalidAddress w s

/-- `in a`: the character is taken first, then the destination word is fetched, unresolved (R113). With no character to
take the step is not enabled: the state stays as it was, pc at the opcode word (R69, R115, log 6). -/
def execInp (a : Operand) (s : State) : Result :=
  withFetch 20 s fun s' =>
    match s'.takeChar? with
    | none => .next s
    | some (ch, s') => withFetch a.toWord s' fun s' => writeDestination a ch s'

end Sys2Proof.Machine
end

