-- ==== Sys2Proof/Machine/Fetch.lean ====
section
/-! DEFINITION. What the machine does next (40_fetch_dispatch.md R63, R68): which instruction stands at pc, or what happens instead of one. -/

namespace Sys2Proof.Machine

/-- The content of a cell; 0 stands for a cell that does not exist, whose fetch is raised before the word is used (R60, log 8). -/
def State.cellAt (s : State) (a : Nat) : Word := if a < Config.memWords then s.mem.readCell a else 0

/-- The four words from pc, as many as the longest instruction has (R45). -/
def State.fetchWindow (s : State) : List Word :=
  let p := s.pc.toNat
  [s.cellAt p, s.cellAt (p + 1), s.cellAt (p + 2), s.cellAt (p + 3)]

/-- What the machine does next. -/
inductive Turn where
  /-- Execute this instruction, whose opcode word stands at pc. -/
  | execute (i : Instr)
  /-- No instruction: the machine goes to this state. -/
  | settle (t : State)
deriving DecidableEq, Repr

/-- The fetch of the opcode word and the dispatch on it, in RUNNING: a bad pc and an undefined opcode are raised (R60, R63, R121). -/
def fetchTurn (s : State) : Turn :=
  if s.pc.toNat < Config.memWords then
    match decode s.fetchWindow with
    | .ok (i, _) => .execute i
    | .error (.undefinedOpcode w) => .settle ((s.fetched w).faulted .undefinedOpcode w)
    | .error .truncated => .settle s
  else .settle (s.faulted .invalidAddress s.pc)

/-- In READY the host's Run starts the machine (R142, log 3); in RUNNING an instruction is fetched (R63); in a terminal
status no step is taken and no state changes (R20, R132, log 4). -/
def nextTurn (s : State) : Turn :=
  match s.status with
  | .ready => .settle s.run
  | .running => fetchTurn s
  | .halted => .settle s
  | .haltedUnderflow => .settle s
  | .fatal _ => .settle s

/-- Store words in the cells from address `a`. -/
def State.withWordsAt (s : State) (a : Nat) (ws : List Word) : State := { s with mem := s.mem.loadFrom a ws }

/-- The address at which `withFetchWord` places an instruction: pc, or 0 where four words from pc would pass the last cell. -/
def State.placeForFetch (s : State) : Word := if s.pc.toNat + 4 ≤ Config.memWords then s.pc else 0

/-- The state with the four words at the place the next fetch reads, started: this stands for Load and Run (R141, R142, log 3). -/
def State.placeWords (s : State) (ws : List Word) : State :=
  { s.withWordsAt s.placeForFetch.toNat ws with pc := s.placeForFetch, status := .running }

end Sys2Proof.Machine
end

