-- ==== Sys2Proof/Machine/Step.lean ====
section
/-! DEFINITION. One step of the machine (R63, R68), and the placing of an opcode-table word where the next step fetches it. -/

namespace Sys2Proof.Machine

/-- One step: the instruction at pc, or what happens instead of one. -/
def step (s : State) : Host.Outcome State Fault Refusal :=
  match nextTurn s with
  | .execute i => exec i s
  | .settle t => .next t

/-- `s` with the words of an opcode-table row stored where the next step fetches, and running (log 3). -/
def State.withFetchWord (s : State) (nbits w : Nat) : State := s.placeWords (tableWords nbits w)

end Sys2Proof.Machine
end

