-- ==== Sys2Proof/Safety.lean ====
section
/-! DEFINITION. What counts as a safe run and a good end (60_exceptions.md R139, 70_reset_and_hazards.md R145), and the terms the statements are made in: clean states (R13), what an instruction names and writes (R12, R33), and the first fault of an instruction's words (R130). -/

namespace Sys2Proof.Machine

/-- HALTED or HALTED_UNDERFLOW: the run has ended well (R139, R145). -/
def Status.success : Status → Bool
  | .halted => true
  | .haltedUnderflow => true
  | _ => false

/-- One of the fatal codes 4 to 8: the run has ended badly (R139, R145). -/
def Status.isFatal : Status → Bool
  | .fatal _ => true
  | _ => false

/-- Statuses 2 to 8: the run has ended (R20, R145). -/
def Status.terminal (st : Status) : Bool := st.success || st.isFatal

/-- A state of a correct run: no fatal condition has been raised (R139). -/
def State.Safe (s : State) : Prop := s.status.isFatal = false

/-- The clean states of R13, where the loaded image fills the cells below `n`: every register, every stack entry and every
memory cell that is not part of the image is canonical. -/
def State.Clean (n : Nat) (s : State) : Prop :=
  (∀ r, Word.Canonical (s.reg r)) ∧ (∀ v ∈ s.stack, Word.Canonical v) ∧
    ∀ a, n ≤ a → a < 32768 → Word.Canonical (s.mem.readCell a)

/-- The two leaks of R13: `rmem` of a valid cell that holds a value above 32767, and `call` whose opcode word is at 32766. -/
def Leaks (i : Instr) (s : State) : Prop :=
  match i with
  | .rmem _ b => ∃ v, operandValue? b s = some v ∧ v.toNat < 32768 ∧ 32768 ≤ (s.mem.readCell v.toNat).toNat
  | .call _ => s.pc = 32766
  | _ => False

/-- The registers an instruction's operand words name (R12). -/
def namedRegisters (i : Instr) : List RegId := i.operands.filterMap operandTarget?

/-- The registers an instruction's value operands name, the only ones it reads (R12, R61, R62). -/
def readRegisters (i : Instr) : List RegId :=
  (i.kinds.zip i.operands).filterMap fun p => if p.1 = .value then operandTarget? p.2 else none

/-- The register an instruction may write: its target, or the destination of `in` where that is a register (R12, R49). -/
def destination? (i : Instr) : Option RegId :=
  match i.kinds, i.operands with
  | .target :: _, a :: _ => operandTarget? a
  | .destination :: _, a :: _ => operandTarget? a
  | _, _ => none

/-- The cell an instruction may write: the value of the first operand of `wmem`, and the literal destination of `in` (R33). -/
def storeAddress? (i : Instr) (s : State) : Option Word :=
  match i with
  | .wmem a _ => operandValue? a s
  | .inp (.literal v) => some (v.setWidth 16)
  | _ => none

/-- The address an instruction's data access uses: the value of the address operand of `rmem` and `wmem`, and the destination
word of `in` where that is no register (R33, R124). -/
def dataAddress? (i : Instr) (s : State) : Option Word :=
  match i with
  | .rmem _ b => operandValue? b s
  | .wmem a _ => operandValue? a s
  | .inp (.literal v) => some (v.setWidth 16)
  | .inp (.invalid w) => some w
  | _ => none

/-- The trace events of fetching these words from an address on (R70). -/
def fetchEvents (p : Word) : List Word → List (Word × Word)
  | [] => []
  | w :: ws => (p, w) :: fetchEvents (p + 1) ws

/-- The fault of one operand word of a kind, when there is one (R52). -/
def kindFault? : OperandKind → Operand → Option Fatal
  | .value, .invalid _ => some .invalidInstruction
  | .target, .literal _ => some .invalidRegisterAddress
  | .target, .invalid _ => some .invalidRegisterAddress
  | .destination, .invalid _ => some .invalidAddress
  | _, _ => none

/-- A fault found among an instruction's words: the condition, its `fault_value`, and how many words had been fetched. -/
structure FaultReport where
  kind : Fatal
  info : Word
  fetched : Nat
deriving DecidableEq, Repr

/-- The first fault among the operand words, `n` words of the instruction having been fetched from address `p` on:
for each word first its fetch, then its classification (R130). -/
def scanOperands (p : Nat) : Nat → List (OperandKind × Operand) → Option FaultReport
  | _, [] => none
  | n, (k, o) :: rest =>
    if 32768 ≤ p + n then some ⟨.invalidAddress, BitVec.ofNat 16 (p + n), n⟩
    else match kindFault? k o with
      | some f => some ⟨f, o.toWord, n + 1⟩
      | none => scanOperands p (n + 1) rest

/-- The first fault among the words of an instruction whose opcode word is at address `p` (R130). -/
def operandFault? (i : Instr) (p : Word) : Option FaultReport :=
  if 32768 ≤ p.toNat then some ⟨.invalidAddress, p, 0⟩ else scanOperands p.toNat 1 (i.kinds.zip i.operands)

/-- The state a fault of R128 to R130 leaves: pc past the words fetched, their trace events, status and fault_value; all else as it was. -/
def State.afterFault (s : State) (i : Instr) (f : FaultReport) : State :=
  { s with
    pc := s.pc + BitVec.ofNat 16 f.fetched
    status := .fatal f.kind
    faultValue := f.info
    trace := s.trace ++ fetchEvents s.pc ((encode i).take f.fetched) }

/-- The same change made to the next state of an outcome. -/
def mapNext (f : State → State) : Result → Result
  | .next s => .next (f s)
  | .fault r => .fault r
  | .refused r => .refused r

/-- A sequence of pushes, the first value first (R95, R103). -/
def State.pushAll (s : State) (vs : List Word) : State := vs.foldl State.push s

/-- `n` pops in a row, the values in the order they came out; none if the stack runs empty (R95, R103). -/
def State.popMany (s : State) : Nat → Option (List Word × State)
  | 0 => some ([], s)
  | n + 1 =>
    match s.popped? with
    | none => none
    | some (v, s') =>
      match s'.popMany n with
      | none => none
      | some (vs, t) => some (v :: vs, t)

end Sys2Proof.Machine
end

