-- ==== Sys2Proof/Certificates/Slice0/Obligations.lean ====
section
/-! DEFINITION. The statements for the provers, taken from the numbered rules of spec/. Each docstring names the rule. A clause about InvalidAddress, ModuloByZero or a status code rests on a decision the spec marks as its own (D3, D4, D5, D10, D13): it is said so there. -/

namespace Sys2Proof.Machine

/-- R130 for one instruction: whatever the state, the first fault among the words of `i` is the one taken, with the words
before it fetched and nothing else done. The rule of each instruction lists these faults in this order itself (R75, R80, R96, …);
that a fetch past 32767 is fatal and what fault_value records are the spec's D4 and D13. -/
def FaultsInOrder (i : Instr) : Prop :=
  ∀ s f, operandFault? i s.pc = some f → exec i s = .next (s.afterFault i f)

/-- The rule of a three-operand ALU instruction (R80 to R87): its encoding, its faults in order, and its completion with the
result `f vb vc` in the target, pc at p + 4 and all else as it was. -/
def ThreeOperandRule (op : Word) (mk : Operand → Operand → Operand → Instr) (f : Word → Word → Word) : Prop :=
  (∀ a b c, encode (mk a b c) = [op, a.toWord, b.toWord, c.toWord]) ∧
  (∀ a b c, FaultsInOrder (mk a b c)) ∧
  ∀ s r b c vb vc, s.pc.toNat + 4 ≤ 32768 → operandValue? b s = some vb → operandValue? c s = some vc →
    exec (mk (.register r) b c) s = .next
      { s with
        x := s.x.set r (f vb vc)
        pc := s.pc + 4
        trace := s.trace ++ fetchEvents s.pc [op, (Operand.register r).toWord, b.toWord, c.toWord] }

/-- The rule of a conditional jump (R99, R100): taken when `cond va`, and the second operand is resolved either way. -/
def ConditionalJumpRule (op : Word) (mk : Operand → Operand → Instr) (cond : Word → Prop) : Prop :=
  (∀ a b, encode (mk a b) = [op, a.toWord, b.toWord]) ∧
  (∀ a b, FaultsInOrder (mk a b)) ∧
  ∀ s a b va vb, s.pc.toNat + 3 ≤ 32768 → operandValue? a s = some va → operandValue? b s = some vb →
    (cond va → exec (mk a b) s = .next
      { s with pc := vb, trace := s.trace ++ fetchEvents s.pc [op, a.toWord, b.toWord] }) ∧
    (¬ cond va → exec (mk a b) s = .next
      { s with pc := s.pc + 3, trace := s.trace ++ fetchEvents s.pc [op, a.toWord, b.toWord] })

/-- R40 for a word `v` stored at `a` in the memory `m`: every later fetch of that address, as an opcode word or as any of the
three operand words, reads it. -/
def EveryFetchReads (m : Memory) (a v : Word) : Prop :=
  ∀ u : State, u.mem = m →
    (u.pc = a → u.fetchWindow.head? = some v) ∧
    (u.pc.toNat + 1 = a.toNat → u.fetchWindow[1]? = some v) ∧
    (u.pc.toNat + 2 = a.toNat → u.fetchWindow[2]? = some v) ∧
    (u.pc.toNat + 3 = a.toNat → u.fetchWindow[3]? = some v)

/-- The words of the first `n` cells from `pc` on. -/
def cellsFromPc (s : State) (n : Nat) : List Word := (List.range n).map fun k => s.mem.readCell (s.pc.toNat + k)

end Sys2Proof.Machine

open Sys2Proof Sys2Proof.Machine

/-! ## Encoding -/

/-- 30_encoding.md sections 1 to 3: the words of every well-formed instruction, whatever follows them, decode to it. -/
def Obligations.DecodeOfEncodeIsTheInstruction : Prop :=
  ∀ (i : Instr) (rest : List Word), i.WellFormed → decode (encode i ++ rest) = .ok (i, rest)

/-- 30_encoding.md sections 1 to 3: what decodes is well formed, and its words are the words read. -/
def Obligations.EncodeOfDecodeIsTheWords : Prop :=
  ∀ (ws rest : List Word) (i : Instr), decode ws = .ok (i, rest) → i.WellFormed ∧ ws = encode i ++ rest

/-- 95_test_vectors.md section 4: some word sequences and what they decode to. -/
def Obligations.WrittenOutWordsDecode : Prop :=
  decode [9, 32768, 60, 5] = .ok (.add (.register 0) (.literal 60) (.literal 5), []) ∧
  decode [16, 32768, 5] = .ok (.wmem (.register 0) (.literal 5), []) ∧
  decode [20, 100] = .ok (.inp (.literal 100), []) ∧
  decode [14, 32771, 32767] = .ok (.not (.register 3) (.literal 32767), []) ∧
  decode [17, 32775] = .ok (.call (.register 7), []) ∧
  decode [18] = .ok (.ret, []) ∧
  decode [1, 32768, 32776] = .ok (.set (.register 0) (.invalid 32776), []) ∧
  decode [22, 0, 0] = .error (.undefinedOpcode 22) ∧
  decode [32789] = .error (.undefinedOpcode 32789)

/-- R48: the three ranges of an operand word. -/
def Obligations.OperandWordIsReadByItsRange : Prop :=
  ∀ w : Word,
    (w.toNat ≤ 32767 → ∃ v : BitVec 15, classify w = .literal v ∧ v.toNat = w.toNat) ∧
    (32768 ≤ w.toNat ∧ w.toNat ≤ 32775 → ∃ r : RegId, classify w = .register r ∧ r.val = w.toNat - 32768) ∧
    (32776 ≤ w.toNat → classify w = .invalid w) ∧
    (w.getLsbD 15 = false → classify w = .literal (w.setWidth 15)) ∧
    (w.getLsbD 15 = true ∧ w.extractLsb' 3 12 = 0 → ∃ r : RegId, classify w = .register r ∧ r.val = (w.extractLsb' 0 3).toNat) ∧
    (w.getLsbD 15 = true ∧ w.extractLsb' 3 12 ≠ 0 → classify w = .invalid w)

/-- R47: the number of words is fixed by the opcode alone, and an opcode word has a length exactly when it is 0..21. -/
def Obligations.LengthIsFixedByTheOpcode : Prop :=
  (∀ (op : Word) (ws rest : List Word) (i : Instr), decode (op :: ws) = .ok (i, rest) →
    formatWords op = some (ws.length + 1 - rest.length) ∧ rest.length ≤ ws.length) ∧
  (∀ (op : Word) (ws : List Word), 3 ≤ ws.length → op.toNat ≤ 21 → ∃ i rest, decode (op :: ws) = .ok (i, rest)) ∧
  ∀ op : Word, formatWords op = none ↔ 22 ≤ op.toNat

/-! ## Fetch and operand resolution -/

/-- R61: ResolveValue where the word at pc is `w`: the fetch, and then a literal as it is, the content of the register it
names as stored, or InvalidInstruction with the word. -/
def Obligations.ResolveValueRule : Prop :=
  ∀ (w : Word) (s : State) (k : Word → State → Result),
    (w.toNat ≤ 32767 → withValue (classify w) s k = withFetch w s fun s' => k w s') ∧
    (∀ r : RegId, w.toNat = 32768 + r.val → withValue (classify w) s k = withFetch w s fun s' => k (s'.reg r) s') ∧
    (32776 ≤ w.toNat → withValue (classify w) s k = withFetch w s fun s' =>
      .next { s' with status := .fatal .invalidInstruction, faultValue := w })

/-- R62: ResolveTarget where the word at pc is `w`: the fetch, and then the number of the register it names, which is not
read, or InvalidRegisterAddress with the word. -/
def Obligations.ResolveTargetRule : Prop :=
  ∀ (w : Word) (s : State) (k : RegId → State → Result),
    (∀ r : RegId, w.toNat = 32768 + r.val → withTarget (classify w) s k = withFetch w s fun s' => k r s') ∧
    (w.toNat ≤ 32767 ∨ 32776 ≤ w.toNat → withTarget (classify w) s k = withFetch w s fun s' =>
      .next { s' with status := .fatal .invalidRegisterAddress, faultValue := w })

/-- 40_fetch_dispatch.md section 1 (R60, its check on pc being the spec's D4): FetchRaw advances pc by one and emits one
trace event (address, raw word); above 32767 it raises InvalidAddress(pc) with pc unchanged. -/
def Obligations.FetchRawRule : Prop :=
  ∀ (w : Word) (s : State) (k : State → Result),
    (s.pc.toNat ≤ 32767 → withFetch w s k = k { s with pc := s.pc + 1, trace := s.trace ++ [(s.pc, w)] } ∧
      (s.pc + 1).toNat = s.pc.toNat + 1) ∧
    (32768 ≤ s.pc.toNat → withFetch w s k = .next { s with status := .fatal .invalidAddress, faultValue := s.pc })

/-! ## Stack and memory primitives -/

/-- R95: push appends, pop answers the most recently pushed value and removes it, and only an empty stack has none. -/
def Obligations.StackPrimitives : Prop :=
  ∀ (s : State) (v : Word),
    (s.push v).stack = v :: s.stack ∧ (s.push v).popped? = some (v, s) ∧
    (s.popped? = none ↔ s.stack.length = 0) ∧
    ∀ w t, s.popped? = some (w, t) → s.stack = w :: t.stack ∧ t.push w = s

/-- R103: pushes followed by as many pops give the values in reverse order and the state back; `ret` after `call` with the
stack as the call left it resumes at the word after the call. -/
def Obligations.PushPopAndCallReturnLaws : Prop :=
  (∀ (s : State) (vs : List Word), (s.pushAll vs).popMany vs.length = some (vs.reverse, s)) ∧
  ∀ (s t u : State) (a : Operand) (v : Word), s.pc.toNat + 2 ≤ 32768 → operandValue? a s = some v →
    exec (.call a) s = .next t → u.stack = t.stack → u.pc.toNat < 32768 →
    ∃ u', exec .ret u = .next u' ∧ u'.pc = s.pc + 2 ∧ u'.stack = s.stack

/-- 20_memory.md section 1 (R32, the raise being the spec's D3): a read answers the cell, a write changes that cell and no
other, and an address above 32767 is raised with nothing done. The last clause, that a write keeps `Memory.wf`, is about the
model's own form of the memory list and no rule of the spec (log 1). -/
def Obligations.MemoryPrimitives : Prop :=
  ∀ (s : State) (addr v : Word) (k : Word → Result),
    (addr.toNat ≤ 32767 → memRead addr s k = k (s.mem.readCell addr.toNat) ∧
      ∃ m, memWrite addr v s = .next { s with mem := m } ∧ m.readCell addr.toNat = v ∧
        (∀ a, a ≠ addr.toNat → m.readCell a = s.mem.readCell a) ∧ (s.mem.wf = true → m.wf = true)) ∧
    (32768 ≤ addr.toNat →
      memRead addr s k = .next { s with status := .fatal .invalidAddress, faultValue := addr } ∧
      memWrite addr v s = .next { s with status := .fatal .invalidAddress, faultValue := addr })

/-- 20_memory.md section 4 (R40): a word stored by `wmem` or by `in` is what every later fetch at that address reads, with no
other action. -/
def Obligations.FetchSeesTheStoredWord : Prop :=
  (∀ (s t : State) (a b : Operand) (va vb : Word), s.pc.toNat + 3 ≤ 32768 →
    operandValue? a s = some va → operandValue? b s = some vb → va.toNat < 32768 →
    exec (.wmem a b) s = .next t → EveryFetchReads t.mem va vb) ∧
  ∀ (s t : State) (v : BitVec 15) (ch : Byte) (rest : List Byte), s.pc.toNat + 2 ≤ 32768 → s.input = ch :: rest →
    exec (.inp (.literal v)) s = .next t → EveryFetchReads t.mem (v.setWidth 16) (ch.setWidth 16)

/-! ## Data movement -/

/-- R75. -/
def Obligations.SetCopiesItsValue : Prop :=
  (∀ a b, encode (.set a b) = [1, a.toWord, b.toWord]) ∧
  (∀ a b, FaultsInOrder (.set a b)) ∧
  ∀ s r b vb, s.pc.toNat + 3 ≤ 32768 → operandValue? b s = some vb →
    exec (.set (.register r) b) s = .next
      { s with
        x := s.x.set r vb
        pc := s.pc + 3
        trace := s.trace ++ fetchEvents s.pc [1, (Operand.register r).toWord, b.toWord] }

/-- 41_data_move.md section 2 (R76; that all 16 bits are copied is the spec's D2, the InvalidAddress its D3). -/
def Obligations.RmemLoadsTheWholeCell : Prop :=
  (∀ a b, encode (.rmem a b) = [15, a.toWord, b.toWord]) ∧
  (∀ a b, FaultsInOrder (.rmem a b)) ∧
  ∀ s r b vb, s.pc.toNat + 3 ≤ 32768 → operandValue? b s = some vb →
    (vb.toNat ≤ 32767 → exec (.rmem (.register r) b) s = .next
      { s with
        x := s.x.set r (s.mem.readCell vb.toNat)
        pc := s.pc + 3
        trace := s.trace ++ fetchEvents s.pc [15, (Operand.register r).toWord, b.toWord] }) ∧
    (32768 ≤ vb.toNat → exec (.rmem (.register r) b) s = .next
      { s with
        status := .fatal .invalidAddress
        faultValue := vb
        pc := s.pc + 3
        trace := s.trace ++ fetchEvents s.pc [15, (Operand.register r).toWord, b.toWord] })

/-- 41_data_move.md section 2 (R77; the InvalidAddress is the spec's D3): the address stored to is the value of the first operand. -/
def Obligations.WmemStoresOneCell : Prop :=
  (∀ a b, encode (.wmem a b) = [16, a.toWord, b.toWord]) ∧
  (∀ a b, FaultsInOrder (.wmem a b)) ∧
  ∀ s a b va vb, s.pc.toNat + 3 ≤ 32768 → operandValue? a s = some va → operandValue? b s = some vb →
    (va.toNat ≤ 32767 → ∃ m, exec (.wmem a b) s = .next
        { s with mem := m, pc := s.pc + 3, trace := s.trace ++ fetchEvents s.pc [16, a.toWord, b.toWord] } ∧
      m.readCell va.toNat = vb ∧ ∀ c, c ≠ va.toNat → m.readCell c = s.mem.readCell c) ∧
    (32768 ≤ va.toNat → exec (.wmem a b) s = .next
      { s with
        status := .fatal .invalidAddress
        faultValue := va
        pc := s.pc + 3
        trace := s.trace ++ fetchEvents s.pc [16, a.toWord, b.toWord] })

/-! ## Arithmetic, logic, comparison -/

/-- R81. -/
def Obligations.EqWritesOneOrZero : Prop :=
  ThreeOperandRule 4 .eq (fun b c => if b = c then 1 else 0)

/-- R82. -/
def Obligations.GtComparesUnsigned : Prop :=
  ThreeOperandRule 5 .gt (fun b c => if b.toNat > c.toNat then 1 else 0)

/-- R83. -/
def Obligations.AddIsModulo32768 : Prop :=
  ThreeOperandRule 9 .add (fun b c => BitVec.ofNat 16 ((b.toNat + c.toNat) % 32768))

/-- R84. -/
def Obligations.MultIsModulo32768 : Prop :=
  ThreeOperandRule 10 .mult (fun b c => BitVec.ofNat 16 ((b.toNat * c.toNat) % 32768))

/-- 42_alu.md section 3 (R85; ModuloByZero is the spec's D5): the unsigned remainder; a zero divisor is raised with the dividend. -/
def Obligations.ModIsTheUnsignedRemainder : Prop :=
  (∀ a b c, encode (.mod a b c) = [11, a.toWord, b.toWord, c.toWord]) ∧
  (∀ a b c, FaultsInOrder (.mod a b c)) ∧
  ∀ s r b c vb vc, s.pc.toNat + 4 ≤ 32768 → operandValue? b s = some vb → operandValue? c s = some vc →
    (vc.toNat ≠ 0 → ∃ v : Word, (v.toNat < vc.toNat ∧ ∃ q, vb.toNat = q * vc.toNat + v.toNat) ∧
      exec (.mod (.register r) b c) s = .next
        { s with
          x := s.x.set r v
          pc := s.pc + 4
          trace := s.trace ++ fetchEvents s.pc [11, (Operand.register r).toWord, b.toWord, c.toWord] }) ∧
    (vc.toNat = 0 → exec (.mod (.register r) b c) s = .next
      { s with
        status := .fatal .moduloByZero
        faultValue := vb
        pc := s.pc + 4
        trace := s.trace ++ fetchEvents s.pc [11, (Operand.register r).toWord, b.toWord, c.toWord] })

/-- R86. -/
def Obligations.AndIsBitwise : Prop :=
  ThreeOperandRule 12 .and (fun b c => b &&& c)

/-- R87. -/
def Obligations.OrIsBitwise : Prop :=
  ThreeOperandRule 13 .or (fun b c => b ||| c)

/-- R88: the complement masked to 15 bits, which equals 32767 - (b mod 32768). -/
def Obligations.NotIsThe15BitComplement : Prop :=
  (∀ a b, encode (.not a b) = [14, a.toWord, b.toWord]) ∧
  (∀ a b, FaultsInOrder (.not a b)) ∧
  ∀ s r b vb, s.pc.toNat + 3 ≤ 32768 → operandValue? b s = some vb →
    ~~~vb &&& 0x7FFF = BitVec.ofNat 16 (32767 - vb.toNat % 32768) ∧
    exec (.not (.register r) b) s = .next
      { s with
        x := s.x.set r (~~~vb &&& 0x7FFF)
        pc := s.pc + 3
        trace := s.trace ++ fetchEvents s.pc [14, (Operand.register r).toWord, b.toWord] }

/-- 42_alu.md section 5 (R89): which results are canonical whatever the inputs, and which for canonical inputs. -/
def Obligations.AluResultsAreCanonical : Prop :=
  ∀ b c : Word,
    (condEq b c).toNat ≤ 1 ∧ (condGt b c).toNat ≤ 1 ∧
    (aluAdd b c).toNat ≤ 32767 ∧ (aluMult b c).toNat ≤ 32767 ∧ (aluNot b).toNat ≤ 32767 ∧
    (c ≠ 0 → (aluMod b c).toNat < c.toNat) ∧
    (b.toNat ≤ 32767 ∧ c.toNat ≤ 32767 → (aluAnd b c).toNat ≤ 32767 ∧ (aluOr b c).toNat ≤ 32767) ∧
    (32768 ≤ (aluMod b c).toNat → c ≠ 0 → 32768 ≤ b.toNat ∧ 32768 < c.toNat) ∧
    (32768 ≤ (aluAnd b c).toNat ↔ 32768 ≤ b.toNat ∧ 32768 ≤ c.toNat) ∧
    (32768 ≤ (aluOr b c).toNat ↔ 32768 ≤ b.toNat ∨ 32768 ≤ c.toNat)

/-- 42_alu.md section 5 (R89, last sentence) and 30_encoding.md section 5 (R56): `add` and `mult` are commutative and
associative and `mult` distributes over `add`, modulo 32768 (R89 claims no more: no identity, no inverse); the idioms for subtract, negate and exclusive-or. -/
def Obligations.AluLawsAndIdioms : Prop :=
  ∀ b c d : Word,
    aluAdd b c = aluAdd c b ∧ aluMult b c = aluMult c b ∧
    aluAdd (aluAdd b c) d = aluAdd b (aluAdd c d) ∧ aluMult (aluMult b c) d = aluMult b (aluMult c d) ∧
    aluMult b (aluAdd c d) = aluAdd (aluMult b c) (aluMult b d) ∧
    (b.toNat ≤ 32767 ∧ 1 ≤ c.toNat ∧ c.toNat ≤ 32767 →
      ((aluAdd b (BitVec.ofNat 16 (32768 - c.toNat))).toNat : Int) = ((b.toNat : Int) - c.toNat) % 32768) ∧
    (b.toNat ≤ 32767 → ((aluAdd (aluNot b) 1).toNat : Int) = (-(b.toNat : Int)) % 32768 ∧ aluNot (aluNot b) = b) ∧
    (b.toNat ≤ 32767 ∧ c.toNat ≤ 32767 → aluAnd (aluNot (aluAnd b c)) (aluOr b c) = b ^^^ c)

/-! ## Stack and control flow -/

/-- R96. -/
def Obligations.PushAddsItsValue : Prop :=
  (∀ a, encode (.push a) = [2, a.toWord]) ∧
  (∀ a, FaultsInOrder (.push a)) ∧
  ∀ s a va, s.pc.toNat + 2 ≤ 32768 → operandValue? a s = some va →
    exec (.push a) s = .next
      { s with
        stack := va :: s.stack
        pc := s.pc + 2
        trace := s.trace ++ fetchEvents s.pc [2, a.toWord] }

/-- 43_stack_control.md section 2 (R97; the order of target and stack test, and pc on underflow, are the spec's D7). -/
def Obligations.PopTakesTheTopOrHaltsGracefully : Prop :=
  (∀ a, encode (.pop a) = [3, a.toWord]) ∧
  (∀ a, FaultsInOrder (.pop a)) ∧
  ∀ s r, s.pc.toNat + 2 ≤ 32768 →
    (∀ v rest, s.stack = v :: rest → exec (.pop (.register r)) s = .next
      { s with
        x := s.x.set r v
        stack := rest
        pc := s.pc + 2
        trace := s.trace ++ fetchEvents s.pc [3, (Operand.register r).toWord] }) ∧
    (s.stack = [] → exec (.pop (.register r)) s = .next
      { s with
        status := .haltedUnderflow
        pc := s.pc + 2
        trace := s.trace ++ fetchEvents s.pc [3, (Operand.register r).toWord] })

/-- R98: any target is accepted. -/
def Obligations.JmpSetsPc : Prop :=
  (∀ a, encode (.jmp a) = [6, a.toWord]) ∧
  (∀ a, FaultsInOrder (.jmp a)) ∧
  ∀ s a va, s.pc.toNat + 2 ≤ 32768 → operandValue? a s = some va →
    exec (.jmp a) s = .next { s with pc := va, trace := s.trace ++ fetchEvents s.pc [6, a.toWord] }

/-- 43_stack_control.md section 3 (R99; that the untaken target is resolved is the spec's D17). -/
def Obligations.JtJumpsOnNonzero : Prop :=
  ConditionalJumpRule 7 .jt (fun v => v ≠ 0)

/-- 43_stack_control.md section 3 (R100; that the untaken target is resolved is the spec's D17). -/
def Obligations.JfJumpsOnZero : Prop :=
  ConditionalJumpRule 8 .jf (fun v => v = 0)

/-- 43_stack_control.md section 4 (R101; that nothing is pushed on a fault is the spec's D8): the return address is p + 2
however the operand is encoded. -/
def Obligations.CallPushesTheNextAddress : Prop :=
  (∀ a, encode (.call a) = [17, a.toWord]) ∧
  (∀ a, FaultsInOrder (.call a)) ∧
  ∀ s a va, s.pc.toNat + 2 ≤ 32768 → operandValue? a s = some va →
    exec (.call a) s = .next
      { s with
        stack := (s.pc + 2) :: s.stack
        pc := va
        trace := s.trace ++ fetchEvents s.pc [17, a.toWord] }

/-- 43_stack_control.md section 4 (R102; that pc stays at p + 1 on the empty stack is the spec's D7). -/
def Obligations.RetPopsPcOrHaltsGracefully : Prop :=
  encode .ret = [18] ∧ FaultsInOrder .ret ∧
  ∀ s : State, s.pc.toNat + 1 ≤ 32768 →
    (∀ v rest, s.stack = v :: rest → exec .ret s = .next
      { s with stack := rest, pc := v, trace := s.trace ++ [(s.pc, 18)] }) ∧
    (s.stack = [] → exec .ret s = .next
      { s with status := .haltedUnderflow, pc := s.pc + 1, trace := s.trace ++ [(s.pc, 18)] })

/-! ## System and character I/O -/

/-- R110. -/
def Obligations.HaltEndsTheRun : Prop :=
  encode .halt = [0] ∧ FaultsInOrder .halt ∧
  ∀ s : State, s.pc.toNat + 1 ≤ 32768 →
    exec .halt s = .next { s with status := .halted, pc := s.pc + 1, trace := s.trace ++ [(s.pc, 0)] }

/-- R111. -/
def Obligations.NoopOnlyAdvancesPc : Prop :=
  encode .noop = [21] ∧ FaultsInOrder .noop ∧
  ∀ s : State, s.pc.toNat + 1 ≤ 32768 →
    exec .noop s = .next { s with pc := s.pc + 1, trace := s.trace ++ [(s.pc, 21)] }

/-- 44_io_system.md section 2 (R112; that the whole 16-bit value is handed over is the spec's D11). -/
def Obligations.OutEmitsTheWholeCode : Prop :=
  (∀ a, encode (.out a) = [19, a.toWord]) ∧
  (∀ a, FaultsInOrder (.out a)) ∧
  ∀ s a va, s.pc.toNat + 2 ≤ 32768 → operandValue? a s = some va →
    exec (.out a) s = .next
      { s with
        output := s.output ++ [va]
        pc := s.pc + 2
        trace := s.trace ++ fetchEvents s.pc [19, a.toWord] }

/-- 44_io_system.md sections 3 and 4 (R113, R115; range of the code, order and the bad destination are the spec's D9 and
D10; that a waiting step leaves the state as it was is the model's log 6, by R69): `in` with a character delivered, to a
register, to a cell, and with a faulting destination; and `in` with none. -/
def Obligations.InTakesOneCharacter : Prop :=
  (∀ a, encode (.inp a) = [20, a.toWord]) ∧
  (∀ (s : State) ch rest, s.input = ch :: rest → s.pc.toNat + 2 ≤ 32768 →
    (∀ r, exec (.inp (.register r)) s = .next
      { s with
        x := s.x.set r (ch.setWidth 16)
        input := rest
        pc := s.pc + 2
        trace := s.trace ++ fetchEvents s.pc [20, (Operand.register r).toWord] }) ∧
    ∀ v : BitVec 15, ∃ m, exec (.inp (.literal v)) s = .next
        { s with
          mem := m
          input := rest
          pc := s.pc + 2
          trace := s.trace ++ fetchEvents s.pc [20, (Operand.literal v).toWord] } ∧
      m.readCell v.toNat = ch.setWidth 16 ∧ ∀ c, c ≠ v.toNat → m.readCell c = s.mem.readCell c) ∧
  (∀ (s : State) a ch rest f, s.input = ch :: rest → s.pc.toNat < 32768 → operandFault? (.inp a) s.pc = some f →
    exec (.inp a) s = .next { s.afterFault (.inp a) f with input := rest }) ∧
  (∀ (s : State) a, s.input = [] → s.pc.toNat < 32768 → exec (.inp a) s = .next s) ∧
  ∀ (s : State) a, 32768 ≤ s.pc.toNat →
    exec (.inp a) s = .next { s with status := .fatal .invalidAddress, faultValue := s.pc }

/-! ## The step -/

/-- 40_fetch_dispatch.md section 2 (R63): in RUNNING a step is the instruction the words at pc decode to, and the words are
the cells from pc. `exec` is the whole step: `step` adds nothing around it. -/
def Obligations.StepRunsTheDecodedInstruction : Prop :=
  ∀ s : State, s.status = .running → s.pc.toNat < 32768 →
    (∀ i rest, decode s.fetchWindow = .ok (i, rest) → step s = exec i s) ∧
    ∀ n, n < 4 → s.pc.toNat + n < 32768 → s.fetchWindow[n]? = some (s.mem.readCell (s.pc.toNat + n))

/-- 60_exceptions.md section 1 (R121; that 0..21 has no hole is the spec's D6): an opcode word in 22..65535, and no other, is
UndefinedOpcode, with pc after the word and no operand fetched. -/
def Obligations.UndefinedOpcodeIsAbove21 : Prop :=
  ∀ s : State, s.status = .running → s.pc.toNat < 32768 →
    (22 ≤ (s.mem.readCell s.pc.toNat).toNat → step s = .next
      { s with
        status := .fatal .undefinedOpcode
        faultValue := s.mem.readCell s.pc.toNat
        pc := s.pc + 1
        trace := s.trace ++ [(s.pc, s.mem.readCell s.pc.toNat)] }) ∧
    ((s.mem.readCell s.pc.toNat).toNat ≤ 21 → ∀ t, step s = .next t → t.status ≠ .fatal .undefinedOpcode)

/-- 10_state.md section 3 (R16, the spec's D4): pc does not wrap, and the opcode fetch above 32767 is InvalidAddress(pc) with pc unchanged. -/
def Obligations.FetchAboveTheTopIsInvalidAddress : Prop :=
  ∀ s : State, s.status = .running → 32768 ≤ s.pc.toNat →
    step s = .next { s with status := .fatal .invalidAddress, faultValue := s.pc }

/-- 10_state.md section 7 and 60_exceptions.md section 2 (R20, R132): in a terminal status nothing changes. That such a step
answers the same state is the model's choice (log 4). -/
def Obligations.TerminalStatusIsAbsorbing : Prop :=
  ∀ s : State, s.status.terminal = true → step s = .next s

/-- 70_reset_and_hazards.md section 1 (R142, the spec's D14): Run makes READY RUNNING and does nothing in another status.
That the step in READY is Run is the model's choice (log 3). -/
def Obligations.RunStartsAReadyMachine : Prop :=
  ∀ s : State,
    (s.status = .ready → s.run = { s with status := .running } ∧ step s = .next { s with status := .running }) ∧
    (s.status ≠ .ready → s.run = s)

/-- 60_exceptions.md (R120) and 40_fetch_dispatch.md (R68): a running machine stops running only by `halt`, by `pop` or `ret`
on an empty stack, or by a fatal condition; and fault_value is written only with a fatal status. -/
def Obligations.ARunEndsOnlyByATerminalCondition : Prop :=
  ∀ s t : State, s.status = .running → step s = .next t →
    (t.status = .running ∨
      (t.status = .halted ∧ nextTurn s = .execute .halt) ∨
      (t.status = .haltedUnderflow ∧ s.stack = [] ∧
        (nextTurn s = .execute .ret ∨ ∃ r, nextTurn s = .execute (.pop (.register r)))) ∨
      t.status.isFatal = true) ∧
    (t.status.isFatal = false → t.faultValue = s.faultValue)

/-- 60_exceptions.md section 1 (R120 to R125; conditions 7 and 8 and the record of fault_value are the spec's D3, D4, D5, D10,
D13): a running machine gets a fatal status only from the cause listed for it, with the fault_value listed for it. For
InvalidAddress the causes are a fetch above 32767, whose address is the pc left behind (the opcode word's, or that of an
operand word past the last cell), and the data address of `rmem`, `wmem` or `in`, with pc after the whole instruction. -/
def Obligations.EveryFatalStatusHasItsCause : Prop :=
  ∀ s t : State, s.status = .running → step s = .next t →
    (t.status = .fatal .undefinedOpcode →
      22 ≤ (s.mem.readCell s.pc.toNat).toNat ∧ t.faultValue = s.mem.readCell s.pc.toNat) ∧
    (t.status = .fatal .invalidInstruction → ∃ i w, nextTurn s = .execute i ∧
      (OperandKind.value, Operand.invalid w) ∈ i.kinds.zip i.operands ∧ t.faultValue = w) ∧
    (t.status = .fatal .invalidRegisterAddress → ∃ i o, nextTurn s = .execute i ∧
      (OperandKind.target, o) ∈ i.kinds.zip i.operands ∧ operandTarget? o = none ∧ t.faultValue = o.toWord) ∧
    (t.status = .fatal .invalidAddress → 32768 ≤ t.faultValue.toNat ∧
      ((t.faultValue = t.pc ∧ t.pc = s.pc) ∨
        (t.faultValue = t.pc ∧ t.pc = 32768 ∧ s.pc.toNat < 32768 ∧
          ∃ i, nextTurn s = .execute i ∧ 32768 < s.pc.toNat + (encode i).length) ∨
        ∃ i, nextTurn s = .execute i ∧ dataAddress? i s = some t.faultValue ∧
          t.pc = s.pc + BitVec.ofNat 16 (encode i).length)) ∧
    (t.status = .fatal .moduloByZero → ∃ a b c, nextTurn s = .execute (.mod a b c) ∧
      operandValue? c s = some 0 ∧ operandValue? b s = some t.faultValue)

/-- 60_exceptions.md section 2 (R128, R129; the spec's D13, D15): a step that raises a fatal condition has written no register,
no cell, no stack entry and emitted nothing; pc and the trace have passed the words fetched, which are the first cells from
pc, at most four; only `in` has consumed a character. -/
def Obligations.FaultsArePrecise : Prop :=
  ∀ s t : State, s.status = .running → step s = .next t → t.status.isFatal = true →
    t.x = s.x ∧ t.mem = s.mem ∧ t.stack = s.stack ∧ t.output = s.output ∧
    (t.input = s.input ∨ ∃ a ch, nextTurn s = .execute (.inp a) ∧ s.input = ch :: t.input) ∧
    ∃ n, n ≤ 4 ∧ (n = 0 ∨ s.pc.toNat + n ≤ 32768) ∧ t.pc.toNat = s.pc.toNat + n ∧
      t.trace = s.trace ++ fetchEvents s.pc (cellsFromPc s n)

/-- 93_implementation_defined.md (end of section 2) and 70_reset_and_hazards.md (R148): every state has a next state, and the
only steps that change nothing are those of an ended run and of an `in` with no character to take. Several of its clauses are
the model's choices: that a step in READY changes the status (log 3), that one in a terminal status answers the same state
(log 4), that a waiting `in` leaves the whole state (log 6), and that the trace is part of the state (log 7), without which a
`jmp` to its own address would change nothing. -/
def Obligations.OnlyInWaits : Prop :=
  ∀ s : State, ∃ t, step s = .next t ∧
    (t = s ↔ s.status.terminal = true ∨ ∃ a, nextTurn s = .execute (.inp a) ∧ s.input = [])

/-! ## What an instruction may write -/

/-- R12: an instruction writes no register but its target (or the register `in` names); it neither reads nor writes a
register its operand words do not name; and it reads no register but those its value operands name: with another content in
a register that is not one of them, everything but that register comes out the same. -/
def Obligations.OnlyNamedRegistersAreReadOrWritten : Prop :=
  (∀ (i : Instr) (s t : State) (r : RegId), exec i s = .next t → destination? i ≠ some r → t.reg r = s.reg r) ∧
  (∀ (i : Instr) (s : State) (r : RegId) (v : Word), r ∉ namedRegisters i →
    exec i (s.writeReg r v) = mapNext (fun t => t.writeReg r v) (exec i s)) ∧
  ∀ (i : Instr) (s : State) (r : RegId) (v w : Word), r ∉ readRegisters i →
    mapNext (fun t => t.writeReg r w) (exec i (s.writeReg r v)) = mapNext (fun t => t.writeReg r w) (exec i s)

/-- 20_memory.md section 1 (R33; 90_conflicts.md C3): no cell changes but the one stored to, by `wmem` at the value of its
first operand or by `in` at its literal destination. -/
def Obligations.OnlyTheStoredCellChanges : Prop :=
  ∀ (i : Instr) (s t : State), exec i s = .next t →
    (storeAddress? i s = none → t.mem = s.mem) ∧
    ∀ a, (∀ w, storeAddress? i s = some w → w.toNat ≠ a) → t.mem.readCell a = s.mem.readCell a

/-- 10_state.md sections 4 and 8 (R17, R21): only `push` and `call` add a stack entry and only `pop` and `ret` remove one,
one at a time; only `out` appends to the output history; only `in` consumes from the input sequence. -/
def Obligations.StackAndPortFrame : Prop :=
  ∀ (i : Instr) (s t : State), exec i s = .next t →
    (t.stack = s.stack ∨
      (∃ a v, (i = .push a ∧ operandValue? a s = some v ∨ i = .call a ∧ v = s.pc + 2) ∧ t.stack = v :: s.stack) ∨
      (∃ v, (i = .ret ∨ ∃ a, i = .pop a) ∧ s.stack = v :: t.stack)) ∧
    (t.output = s.output ∨ ∃ a v, i = .out a ∧ operandValue? a s = some v ∧ t.output = s.output ++ [v]) ∧
    (t.input = s.input ∨ ∃ a ch, i = .inp a ∧ s.input = ch :: t.input)

/-- 10_state.md section 3 and 43_stack_control.md section 5 (R15, R105): an instruction that completes and is no transfer
leaves pc after its last word; a transfer leaves it there or at the value it was given. -/
def Obligations.OnlyTransfersWritePc : Prop :=
  ∀ (i : Instr) (s t : State), s.status = .running → exec i s = .next t → t.status.isFatal = false →
    (∀ a, i = .inp a → s.input ≠ []) →
    t.pc = s.pc + BitVec.ofNat 16 (encode i).length ∨
    (∃ a, (i = .jmp a ∨ i = .call a ∨ ∃ c, i = .jt c a ∨ i = .jf c a) ∧ operandValue? a s = some t.pc) ∨
    (i = .ret ∧ s.stack = t.pc :: t.stack)

/-- R70 and 20_memory.md R38: the trace is purely observational: what a step does to everything else does not depend on it,
and a completed instruction emits exactly one event per word, in fetch order. -/
def Obligations.TraceIsObservational : Prop :=
  (∀ (s : State) (l : List (Word × Word)),
    step { s with trace := l ++ s.trace } = mapNext (fun t => { t with trace := l ++ t.trace }) (step s)) ∧
  ∀ (i : Instr) (s t : State), s.status = .running → exec i s = .next t → t.status.isFatal = false →
    (∀ a, i = .inp a → s.input ≠ []) → t.trace = s.trace ++ fetchEvents s.pc (encode i)

/-! ## Invariants -/

/-- The model's memory form (log 1), which every statement about equal memories rests on: every step keeps it. -/
def Obligations.StepKeepsTheMemoryCanonical : Prop :=
  ∀ s t : State, s.mem.wf = true → step s = .next t → t.mem.wf = true

/-- 10_state.md sections 2 and 3 (R13, R16): a step that is neither of the two leaks keeps a clean state clean and pc at most
32768; and each leak does leave a value above 32767. -/
def Obligations.StepKeepsAStateCleanButForTwoLeaks : Prop :=
  (∀ (n : Nat) (s t : State), s.Clean n → s.pc.toNat ≤ 32768 →
    (∀ i, nextTurn s = .execute i → ¬ Leaks i s) → step s = .next t → t.Clean n ∧ t.pc.toNat ≤ 32768) ∧
  (∀ (s : State) (r : RegId) (b : Operand), s.pc.toNat + 3 ≤ 32768 → Leaks (.rmem (.register r) b) s →
    ∃ t, exec (.rmem (.register r) b) s = .next t ∧ ¬ Word.Canonical (t.reg r)) ∧
  ∀ (s : State) (a : Operand) (v : Word), operandValue? a s = some v → Leaks (.call a) s →
    ∃ t, exec (.call a) s = .next t ∧ t.stack.head? = some 32768

/-- 10_state.md section 9 (R23): after reset, and so after Create in any state, memory and registers are 0, the stack and the
histories empty, pc 0, the status READY (READY and pc are the spec's D14); the state is clean (R13). That the trace is empty is the model's inference
(log 7), that the memory list has the form `Memory.wf` is about the model's own form (log 1), and that Create leaves the input
sequence to the host is its choice (log 5). Nothing is said of the value of fault_value (log 2). -/
def Obligations.ResetAndCreate : Prop :=
  ∀ s : State,
    (∀ a, s.create.mem.readCell a = 0) ∧ (∀ r, s.create.reg r = 0) ∧ s.create.stack = [] ∧ s.create.pc = 0 ∧
    s.create.status = .ready ∧ s.create.output = [] ∧ s.create.trace = [] ∧ s.create.input = s.input ∧
    State.reset = { s.create with input := State.reset.input, faultValue := State.reset.faultValue } ∧
    s.create.Clean 0 ∧ s.create.mem.wf = true ∧ State.reset.Clean 0 ∧ State.reset.mem.wf = true

/-- 70_reset_and_hazards.md section 1 and 10_state.md section 9 (R141, R24; the refusal outside READY is the spec's D14):
Load copies the image from address 0, leaves every other cell and every other piece of state, and sets pc to 0; an image
of more than 32768 words is LoadError. The clause that `Memory.wf` is kept is about the model's own form of the memory list and
no rule of the spec (log 1). -/
def Obligations.LoadCopiesTheImage : Prop :=
  ∀ (s : State) (image : List Word),
    (s.status = .ready → image.length ≤ 32768 → ∃ m, s.load image = .ok { s with mem := m, pc := 0 } ∧
      (∀ a, (h : a < image.length) → m.readCell a = image[a]) ∧
      (∀ a, image.length ≤ a → m.readCell a = s.mem.readCell a) ∧ (s.mem.wf = true → m.wf = true)) ∧
    (s.status = .ready → 32768 < image.length → s.load image = .error .loadError) ∧
    (s.status ≠ .ready → s.load image = .error .notReady)

/-- 10_state.md section 7 and 60_exceptions.md section 4 (R20, R139; the codes are the spec's D13): the code of each of the nine
statuses, success exactly for 2 and 3, fatal exactly from 4 on. -/
def Obligations.StatusCodesAndOutcomes : Prop :=
  (Status.ready.code = 0 ∧ Status.running.code = 1 ∧ Status.halted.code = 2 ∧ Status.haltedUnderflow.code = 3 ∧
    (Status.fatal .undefinedOpcode).code = 4 ∧ (Status.fatal .invalidInstruction).code = 5 ∧
    (Status.fatal .invalidRegisterAddress).code = 6 ∧ (Status.fatal .invalidAddress).code = 7 ∧
    (Status.fatal .moduloByZero).code = 8) ∧
  (∀ a b : Status, a.code = b.code → a = b) ∧
  ∀ st : Status, st.code.toNat ≤ 8 ∧
    (st.success = true ↔ st.code.toNat = 2 ∨ st.code.toNat = 3) ∧
    (st.isFatal = true ↔ 4 ≤ st.code.toNat) ∧
    (st.terminal = true ↔ st ≠ .ready ∧ st ≠ .running)

/-- 44_io_system.md section 4 (R115) and 10_state.md section 8 (R21): a delivered character goes to the end of the input sequence and changes
nothing else; characters are taken in the order delivered; an `in` that waited takes the character then delivered; and a step
that does not wait for a character is the same whether one more is delivered before it or after it. That the characters stand
in a list the host may add to at any time is the model's choice (log 5), and that a waiting step changes nothing is log 6. -/
def Obligations.DeliveredCharactersAreTakenInOrder : Prop :=
  (∀ (s : State) (ch : Byte), s.deliver ch = { s with input := s.input ++ [ch] }) ∧
  (∀ (s : State) (ch : Byte), s.input = [] → (s.deliver ch).takeChar? = some (ch.setWidth 16, s)) ∧
  (∀ (s : State) (ch c : Byte) (rest : List Byte), s.input = c :: rest →
    (s.deliver ch).takeChar? = some (c.setWidth 16, { s with input := rest ++ [ch] })) ∧
  (∀ (s : State) (r : RegId) (ch : Byte), s.input = [] → s.pc.toNat + 2 ≤ 32768 →
    exec (.inp (.register r)) s = .next s ∧
    ∃ t, exec (.inp (.register r)) (s.deliver ch) = .next t ∧ t.reg r = ch.setWidth 16 ∧ t.input = []) ∧
  ∀ (s : State) (ch : Byte), (∀ a, nextTurn s = .execute (.inp a) → s.input ≠ []) →
    step (s.deliver ch) = mapNext (fun t => t.deliver ch) (step s)
end

