-- ==== Sys2Proof/Laws/Decode.lean ====
section
/-! SUPPORT. Operand words and their readings are in one-to-one correspondence (R48). -/

namespace Sys2Proof

theorem Operand.toWord_literal_toNat (v : BitVec 15) : (Operand.literal v).toWord.toNat = v.toNat := by
  have := v.isLt
  simp only [Operand.toWord, BitVec.toNat_setWidth]
  omega

theorem Operand.toWord_register_toNat (r : RegId) : (Operand.register r).toWord.toNat = 32768 + r.val := by
  have := r.isLt
  simp only [Operand.toWord, BitVec.toNat_ofNat, Config.regBase, Config.nRegs] at this ⊢
  omega

theorem classify_literal (w : Word) (h : w.toNat < 32768) : classify w = .literal (w.setWidth 15) := by
  simp [classify, Config.regBase, h]

theorem classify_register (w : Word) (r : RegId) (h : w.toNat = 32768 + r.val) : classify w = .register r := by
  have := r.isLt
  simp only [Config.nRegs] at this
  have h1 : ¬ w.toNat < 32768 := by omega
  have h2 : w.toNat < 32768 + 8 := by omega
  simp only [classify, Config.regBase, Config.nRegs, h1, h2, if_false, dif_pos, Operand.register.injEq, Fin.ext_iff]
  omega

theorem classify_invalid (w : Word) (h : 32776 ≤ w.toNat) : classify w = .invalid w := by
  have h1 : ¬ w.toNat < 32768 := by omega
  have h2 : ¬ w.toNat < 32768 + 8 := by omega
  simp [classify, Config.regBase, Config.nRegs, h1, h2]

/-- Every word falls into exactly one of the three readings. -/
theorem classify_cases (w : Word) :
    (w.toNat < 32768 ∧ classify w = .literal (w.setWidth 15)) ∨
    (∃ r : RegId, w.toNat = 32768 + r.val ∧ classify w = .register r) ∨
    (32776 ≤ w.toNat ∧ classify w = .invalid w) := by
  by_cases h : w.toNat < 32768
  · exact .inl ⟨h, classify_literal w h⟩
  · by_cases h2 : w.toNat < 32776
    · refine .inr (.inl ⟨⟨w.toNat - 32768, by simp only [Config.nRegs]; omega⟩, ?_, ?_⟩)
      · simp only
        omega
      · apply classify_register
        simp only
        omega
    · exact .inr (.inr ⟨by omega, classify_invalid w (by omega)⟩)

/-- A well-formed operand is read back from its word. -/
@[simp] theorem classify_toWord (o : Operand) (h : o.wellFormed = true) : classify o.toWord = o := by
  cases o with
  | literal v =>
    rw [classify_literal _ (by rw [Operand.toWord_literal_toNat]; exact v.isLt)]
    congr 1
    apply BitVec.eq_of_toNat_eq
    have := Operand.toWord_literal_toNat v
    have hv := v.isLt
    rw [BitVec.toNat_setWidth, this]
    omega
  | register r => exact classify_register _ r (Operand.toWord_register_toNat r)
  | invalid w =>
    simp only [Operand.wellFormed, Config.regBase, Config.nRegs, decide_eq_true_eq] at h
    exact classify_invalid w h

/-- The word of a word's reading is the word. -/
@[simp] theorem toWord_classify (w : Word) : (classify w).toWord = w := by
  rcases classify_cases w with ⟨h, e⟩ | ⟨r, h, e⟩ | ⟨h, e⟩
  · rw [e]
    apply BitVec.eq_of_toNat_eq
    rw [Operand.toWord_literal_toNat, BitVec.toNat_setWidth]
    omega
  · rw [e]
    apply BitVec.eq_of_toNat_eq
    rw [Operand.toWord_register_toNat, h]
  · rw [e, Operand.toWord]

/-- A word's reading is well formed. -/
@[simp] theorem classify_wellFormed (w : Word) : (classify w).wellFormed = true := by
  rcases classify_cases w with ⟨h, e⟩ | ⟨r, h, e⟩ | ⟨h, e⟩
  · rw [e]; rfl
  · rw [e]; rfl
  · rw [e]
    simpa [Operand.wellFormed, Config.regBase, Config.nRegs] using h

/-- What a successful decoding of each format is. -/
theorem decodeF1_ok (mk : Operand → Instr) (ws rest : List Word) (i : Instr) :
    decodeF1 mk ws = .ok (i, rest) ↔ ∃ a, ws = a :: rest ∧ i = mk (classify a) := by
  unfold decodeF1
  split
  · constructor
    · intro e
      cases e
      exact ⟨_, rfl, rfl⟩
    · rintro ⟨a, e, rfl⟩
      cases e
      rfl
  case h_2 h =>
    refine ⟨nofun, ?_⟩
    rintro ⟨a, e, _⟩
    exact absurd e (h _ _)

theorem decodeF2_ok (mk : Operand → Operand → Instr) (ws rest : List Word) (i : Instr) :
    decodeF2 mk ws = .ok (i, rest) ↔ ∃ a b, ws = a :: b :: rest ∧ i = mk (classify a) (classify b) := by
  unfold decodeF2
  split
  · constructor
    · intro e
      cases e
      exact ⟨_, _, rfl, rfl⟩
    · rintro ⟨a, b, e, rfl⟩
      cases e
      rfl
  case h_2 h =>
    refine ⟨nofun, ?_⟩
    rintro ⟨a, b, e, _⟩
    exact absurd e (h _ _ _)

theorem decodeF3_ok (mk : Operand → Operand → Operand → Instr) (ws rest : List Word) (i : Instr) :
    decodeF3 mk ws = .ok (i, rest) ↔
      ∃ a b c, ws = a :: b :: c :: rest ∧ i = mk (classify a) (classify b) (classify c) := by
  unfold decodeF3
  split
  · constructor
    · intro e
      cases e
      exact ⟨_, _, _, rfl, rfl⟩
    · rintro ⟨a, b, c, e, rfl⟩
      cases e
      rfl
  case h_2 h =>
    refine ⟨nofun, ?_⟩
    rintro ⟨a, b, c, e, _⟩
    exact absurd e (h _ _ _ _)

/-- `decode` with at least three words after the opcode word never lacks a word. -/
theorem decode_window_not_truncated (op a b c : Word) : decode [op, a, b, c] ≠ .error .truncated := by
  simp only [decode, decodeF0, decodeF1, decodeF2, decodeF3]
  split <;> simp

end Sys2Proof
end

