-- ==== Sys2Proof/Laws/Memory.lean ====
section
/-! SUPPORT. The laws of memory: read after write, of bytes and of cells, that every memory operation keeps the canonical form, and what a load leaves. -/

namespace Sys2Proof.Machine

theorem Memory.readByte_eraseByte (m : Memory) (a b : Nat) :
    (m.eraseByte a).readByte b = if b = a then 0 else m.readByte b := by
  induction m with
  | nil => simp [Memory.eraseByte, Memory.readByte]
  | cons c rest ih =>
    have ih' : Memory.readByte (List.filter (fun c => c.1 != a) rest) b = if b = a then 0 else Memory.readByte rest b := ih
    simp only [Memory.eraseByte, List.filter_cons]
    by_cases h : c.1 = a
    · simp only [h, bne_self_eq_false, Bool.false_eq_true, if_false, ih', Memory.readByte]
      by_cases hb : b = a
      · simp [hb]
      · simp [hb, show ¬ a = b from fun e => hb e.symm]
    · simp only [bne_iff_ne, ne_eq, h, not_false_eq_true, if_true, Memory.readByte, ih']
      by_cases hc : c.1 = b
      · simp [hc, hc ▸ h]
      · simp [hc]

theorem Memory.readByte_insertByte_other (m : Memory) (a b : Nat) (v : Byte) (h : b ≠ a) :
    (m.insertByte a v).readByte b = m.readByte b := by
  induction m with
  | nil => simp [Memory.insertByte, Memory.readByte, h.symm]
  | cons c rest ih =>
    simp only [Memory.insertByte]
    split
    · simp [Memory.readByte, h.symm]
    · simp [Memory.readByte, ih]

theorem Memory.readByte_insertByte_same (m : Memory) (a : Nat) (v : Byte) (h : ∀ c ∈ m, c.1 ≠ a) :
    (m.insertByte a v).readByte a = v := by
  induction m with
  | nil => simp [Memory.insertByte, Memory.readByte]
  | cons c rest ih =>
    simp only [Memory.insertByte]
    split
    · simp [Memory.readByte]
    · simp [Memory.readByte, h c (by simp), ih (fun d hd => h d (by simp [hd]))]

theorem Memory.eraseByte_keys (m : Memory) (a : Nat) : ∀ c ∈ m.eraseByte a, c.1 ≠ a := by
  intro c hc
  simpa using (List.mem_filter.1 hc).2

/-- Reading any byte after writing one. -/
theorem Memory.readByte_writeByte (m : Memory) (a b : Nat) (v : Byte) :
    (m.writeByte a v).readByte b = if b = a then v else m.readByte b := by
  unfold Memory.writeByte
  by_cases hv : v = 0
  · simp [hv, Memory.readByte_eraseByte]
  · rw [if_neg hv]
    by_cases hb : b = a
    · rw [if_pos hb, hb, Memory.readByte_insertByte_same _ _ _ (Memory.eraseByte_keys m a)]
    · rw [if_neg hb, Memory.readByte_insertByte_other _ _ _ _ hb, Memory.readByte_eraseByte, if_neg hb]

theorem wordOfBytes_low_high (w : Word) : wordOfBytes (lowByte w) (highByte w) = w := by
  apply BitVec.eq_of_getLsbD_eq
  intro i hi
  simp only [wordOfBytes, lowByte, highByte, BitVec.getLsbD_append, BitVec.getLsbD_setWidth, BitVec.getLsbD_extractLsb']
  by_cases h : i < 8
  · simp [h]
  · have h1 : i - 8 < 8 := by omega
    have h2 : 8 + (i - 8) = i := by omega
    simp [h, h1, h2]

/-- Reading any cell after writing one. -/
theorem Memory.readCell_writeCell (m : Memory) (a b : Nat) (v : Word) :
    (m.writeCell a v).readCell b = if b = a then v else m.readCell b := by
  simp only [Memory.readCell, Memory.writeCell, Memory.readByte_writeByte]
  by_cases h : b = a
  · subst h
    simp [wordOfBytes_low_high]
  · simp [h, show ¬ (2 * b = 2 * a + 1) by omega, show ¬ (2 * b + 1 = 2 * a) by omega]

@[simp] theorem Memory.readCell_writeCell_same (m : Memory) (a : Nat) (v : Word) : (m.writeCell a v).readCell a = v := by
  simp [Memory.readCell_writeCell]

@[simp] theorem Memory.readCell_writeCell_other (m : Memory) (a b : Nat) (v : Word) (h : b ≠ a) :
    (m.writeCell a v).readCell b = m.readCell b := by
  simp [Memory.readCell_writeCell, h]

@[simp] theorem Memory.readCell_nil (a : Nat) : Memory.readCell [] a = 0 := by
  simp [Memory.readCell, Memory.readByte, wordOfBytes]

/-- The canonical form, spelled out. -/
theorem Memory.wf_iff (m : Memory) :
    m.wf = true ↔ m.Pairwise (fun c d => c.1 < d.1) ∧ ∀ c ∈ m, c.1 < 65536 ∧ c.2 ≠ 0 := by
  simp [Memory.wf, Config.memWords]

theorem Memory.eraseByte_wf (m : Memory) (a : Nat) (h : m.wf = true) : (m.eraseByte a).wf = true := by
  rw [Memory.wf_iff] at h ⊢
  exact ⟨h.1.filter _, fun c hc => h.2 c (List.mem_filter.1 hc).1⟩

theorem Memory.mem_insertByte (m : Memory) (a : Nat) (v : Byte) (c : Host.Cell) :
    c ∈ m.insertByte a v ↔ c = (a, v) ∨ c ∈ m := by
  induction m with
  | nil => simp [Memory.insertByte]
  | cons d rest ih =>
    simp only [Memory.insertByte]
    split
    · simp
    · simp only [List.mem_cons, ih]
      tauto

theorem Memory.insertByte_pairwise (m : Memory) (a : Nat) (v : Byte) (h : m.Pairwise (fun c d => c.1 < d.1))
    (ha : ∀ c ∈ m, c.1 ≠ a) : (m.insertByte a v).Pairwise (fun c d => c.1 < d.1) := by
  induction m with
  | nil => simp [Memory.insertByte]
  | cons d rest ih =>
    rw [List.pairwise_cons] at h
    simp only [Memory.insertByte]
    split
    case isTrue hlt =>
      rw [List.pairwise_cons, List.pairwise_cons]
      refine ⟨?_, h.1, h.2⟩
      intro c hc
      rcases List.mem_cons.1 hc with rfl | hc
      · exact hlt
      · exact lt_trans hlt (h.1 c hc)
    case isFalse hge =>
      rw [List.pairwise_cons]
      refine ⟨?_, ih h.2 fun c hc => ha c (by simp [hc])⟩
      intro c hc
      rcases (Memory.mem_insertByte rest a v c).1 hc with rfl | hc
      · have := ha d (by simp)
        show d.1 < a
        omega
      · exact h.1 c hc

/-- A byte write inside the 32768 cells keeps the canonical form. -/
theorem Memory.writeByte_wf (m : Memory) (a : Nat) (v : Byte) (h : m.wf = true) (ha : a < 65536) :
    (m.writeByte a v).wf = true := by
  unfold Memory.writeByte
  by_cases hv : v = 0
  · simpa [hv] using Memory.eraseByte_wf m a h
  · rw [if_neg hv]
    have he := (Memory.wf_iff _).1 (Memory.eraseByte_wf m a h)
    rw [Memory.wf_iff]
    refine ⟨Memory.insertByte_pairwise _ a v he.1 (Memory.eraseByte_keys m a), ?_⟩
    intro c hc
    rcases (Memory.mem_insertByte _ a v c).1 hc with rfl | hc
    · exact ⟨ha, hv⟩
    · exact he.2 c hc

/-- A cell write at a valid address keeps the canonical form. -/
theorem Memory.writeCell_wf (m : Memory) (a : Nat) (v : Word) (h : m.wf = true) (ha : a < 32768) :
    (m.writeCell a v).wf = true :=
  Memory.writeByte_wf _ _ _ (Memory.writeByte_wf _ _ _ h (by omega)) (by omega)

/-- What a load leaves in each cell: the image's words from the start address on, and elsewhere what was there. -/
theorem Memory.readCell_loadFrom (m : Memory) (a b : Nat) (image : List Word) :
    (m.loadFrom a image).readCell b = if a ≤ b then (image[b - a]?).getD (m.readCell b) else m.readCell b := by
  induction image generalizing m a with
  | nil => simp [Memory.loadFrom]
  | cons w rest ih =>
    simp only [Memory.loadFrom, ih, Memory.readCell_writeCell]
    by_cases h1 : a + 1 ≤ b
    · have h2 : b - a = (b - (a + 1)) + 1 := by omega
      simp [h1, show a ≤ b by omega, show b ≠ a by omega, h2]
    · by_cases h3 : b = a
      · simp [h3]
      · simp [h1, h3, show ¬ a ≤ b by omega]

/-- A load inside the 32768 cells keeps the canonical form. -/
theorem Memory.loadFrom_wf (m : Memory) (a : Nat) (image : List Word) (h : m.wf = true) (ha : a + image.length ≤ 32768) :
    (m.loadFrom a image).wf = true := by
  induction image generalizing m a with
  | nil => simpa [Memory.loadFrom] using h
  | cons w rest ih =>
    simp only [List.length_cons] at ha
    exact ih _ _ (Memory.writeCell_wf m a w h (by omega)) (by omega)

/-- The memory after reset is canonical. -/
theorem Memory.reset_wf : State.reset.mem.wf = true := by decide

end Sys2Proof.Machine
end

