-- ==== Sys2Proof/Laws/State.lean ====
section
/-! SUPPORT. What each named update of the state does to each field: one lemma per field per update. -/

namespace Sys2Proof.Machine

variable (s : State)

@[simp] theorem State.writeReg_mem (r : RegId) (v : Word) : (s.writeReg r v).mem = s.mem := rfl
@[simp] theorem State.writeReg_x (r : RegId) (v : Word) : (s.writeReg r v).x = s.x.set r v := rfl
@[simp] theorem State.writeReg_pc (r : RegId) (v : Word) : (s.writeReg r v).pc = s.pc := rfl
@[simp] theorem State.writeReg_stack (r : RegId) (v : Word) : (s.writeReg r v).stack = s.stack := rfl
@[simp] theorem State.writeReg_status (r : RegId) (v : Word) : (s.writeReg r v).status = s.status := rfl
@[simp] theorem State.writeReg_faultValue (r : RegId) (v : Word) : (s.writeReg r v).faultValue = s.faultValue := rfl
@[simp] theorem State.writeReg_output (r : RegId) (v : Word) : (s.writeReg r v).output = s.output := rfl
@[simp] theorem State.writeReg_input (r : RegId) (v : Word) : (s.writeReg r v).input = s.input := rfl
@[simp] theorem State.writeReg_trace (r : RegId) (v : Word) : (s.writeReg r v).trace = s.trace := rfl

@[simp] theorem State.jump_mem (t : Word) : (s.jump t).mem = s.mem := rfl
@[simp] theorem State.jump_x (t : Word) : (s.jump t).x = s.x := rfl
@[simp] theorem State.jump_pc (t : Word) : (s.jump t).pc = t := rfl
@[simp] theorem State.jump_stack (t : Word) : (s.jump t).stack = s.stack := rfl
@[simp] theorem State.jump_status (t : Word) : (s.jump t).status = s.status := rfl
@[simp] theorem State.jump_faultValue (t : Word) : (s.jump t).faultValue = s.faultValue := rfl
@[simp] theorem State.jump_output (t : Word) : (s.jump t).output = s.output := rfl
@[simp] theorem State.jump_input (t : Word) : (s.jump t).input = s.input := rfl
@[simp] theorem State.jump_trace (t : Word) : (s.jump t).trace = s.trace := rfl

@[simp] theorem State.push_mem (v : Word) : (s.push v).mem = s.mem := rfl
@[simp] theorem State.push_x (v : Word) : (s.push v).x = s.x := rfl
@[simp] theorem State.push_pc (v : Word) : (s.push v).pc = s.pc := rfl
@[simp] theorem State.push_stack (v : Word) : (s.push v).stack = v :: s.stack := rfl
@[simp] theorem State.push_status (v : Word) : (s.push v).status = s.status := rfl
@[simp] theorem State.push_faultValue (v : Word) : (s.push v).faultValue = s.faultValue := rfl
@[simp] theorem State.push_output (v : Word) : (s.push v).output = s.output := rfl
@[simp] theorem State.push_input (v : Word) : (s.push v).input = s.input := rfl
@[simp] theorem State.push_trace (v : Word) : (s.push v).trace = s.trace := rfl

@[simp] theorem State.emit_mem (v : Word) : (s.emit v).mem = s.mem := rfl
@[simp] theorem State.emit_x (v : Word) : (s.emit v).x = s.x := rfl
@[simp] theorem State.emit_pc (v : Word) : (s.emit v).pc = s.pc := rfl
@[simp] theorem State.emit_stack (v : Word) : (s.emit v).stack = s.stack := rfl
@[simp] theorem State.emit_status (v : Word) : (s.emit v).status = s.status := rfl
@[simp] theorem State.emit_faultValue (v : Word) : (s.emit v).faultValue = s.faultValue := rfl
@[simp] theorem State.emit_output (v : Word) : (s.emit v).output = s.output ++ [v] := rfl
@[simp] theorem State.emit_input (v : Word) : (s.emit v).input = s.input := rfl
@[simp] theorem State.emit_trace (v : Word) : (s.emit v).trace = s.trace := rfl

@[simp] theorem State.endRun_mem (st : Status) : (s.endRun st).mem = s.mem := rfl
@[simp] theorem State.endRun_x (st : Status) : (s.endRun st).x = s.x := rfl
@[simp] theorem State.endRun_pc (st : Status) : (s.endRun st).pc = s.pc := rfl
@[simp] theorem State.endRun_stack (st : Status) : (s.endRun st).stack = s.stack := rfl
@[simp] theorem State.endRun_status (st : Status) : (s.endRun st).status = st := rfl
@[simp] theorem State.endRun_faultValue (st : Status) : (s.endRun st).faultValue = s.faultValue := rfl
@[simp] theorem State.endRun_output (st : Status) : (s.endRun st).output = s.output := rfl
@[simp] theorem State.endRun_input (st : Status) : (s.endRun st).input = s.input := rfl
@[simp] theorem State.endRun_trace (st : Status) : (s.endRun st).trace = s.trace := rfl

@[simp] theorem State.faulted_mem (k : Fatal) (info : Word) : (s.faulted k info).mem = s.mem := rfl
@[simp] theorem State.faulted_x (k : Fatal) (info : Word) : (s.faulted k info).x = s.x := rfl
@[simp] theorem State.faulted_pc (k : Fatal) (info : Word) : (s.faulted k info).pc = s.pc := rfl
@[simp] theorem State.faulted_stack (k : Fatal) (info : Word) : (s.faulted k info).stack = s.stack := rfl
@[simp] theorem State.faulted_status (k : Fatal) (info : Word) : (s.faulted k info).status = .fatal k := rfl
@[simp] theorem State.faulted_faultValue (k : Fatal) (info : Word) : (s.faulted k info).faultValue = info := rfl
@[simp] theorem State.faulted_output (k : Fatal) (info : Word) : (s.faulted k info).output = s.output := rfl
@[simp] theorem State.faulted_input (k : Fatal) (info : Word) : (s.faulted k info).input = s.input := rfl
@[simp] theorem State.faulted_trace (k : Fatal) (info : Word) : (s.faulted k info).trace = s.trace := rfl

@[simp] theorem State.writeMem_mem (a v : Word) : (s.writeMem a v).mem = s.mem.writeCell a.toNat v := rfl
@[simp] theorem State.writeMem_x (a v : Word) : (s.writeMem a v).x = s.x := rfl
@[simp] theorem State.writeMem_pc (a v : Word) : (s.writeMem a v).pc = s.pc := rfl
@[simp] theorem State.writeMem_stack (a v : Word) : (s.writeMem a v).stack = s.stack := rfl
@[simp] theorem State.writeMem_status (a v : Word) : (s.writeMem a v).status = s.status := rfl
@[simp] theorem State.writeMem_faultValue (a v : Word) : (s.writeMem a v).faultValue = s.faultValue := rfl
@[simp] theorem State.writeMem_output (a v : Word) : (s.writeMem a v).output = s.output := rfl
@[simp] theorem State.writeMem_input (a v : Word) : (s.writeMem a v).input = s.input := rfl
@[simp] theorem State.writeMem_trace (a v : Word) : (s.writeMem a v).trace = s.trace := rfl

@[simp] theorem State.fetched_mem (w : Word) : (s.fetched w).mem = s.mem := rfl
@[simp] theorem State.fetched_x (w : Word) : (s.fetched w).x = s.x := rfl
@[simp] theorem State.fetched_pc (w : Word) : (s.fetched w).pc = s.pc + 1 := rfl
@[simp] theorem State.fetched_stack (w : Word) : (s.fetched w).stack = s.stack := rfl
@[simp] theorem State.fetched_status (w : Word) : (s.fetched w).status = s.status := rfl
@[simp] theorem State.fetched_faultValue (w : Word) : (s.fetched w).faultValue = s.faultValue := rfl
@[simp] theorem State.fetched_output (w : Word) : (s.fetched w).output = s.output := rfl
@[simp] theorem State.fetched_input (w : Word) : (s.fetched w).input = s.input := rfl
@[simp] theorem State.fetched_trace (w : Word) : (s.fetched w).trace = s.trace ++ [(s.pc, w)] := rfl

@[simp] theorem State.deliver_mem (ch : Byte) : (s.deliver ch).mem = s.mem := rfl
@[simp] theorem State.deliver_x (ch : Byte) : (s.deliver ch).x = s.x := rfl
@[simp] theorem State.deliver_pc (ch : Byte) : (s.deliver ch).pc = s.pc := rfl
@[simp] theorem State.deliver_stack (ch : Byte) : (s.deliver ch).stack = s.stack := rfl
@[simp] theorem State.deliver_status (ch : Byte) : (s.deliver ch).status = s.status := rfl
@[simp] theorem State.deliver_faultValue (ch : Byte) : (s.deliver ch).faultValue = s.faultValue := rfl
@[simp] theorem State.deliver_output (ch : Byte) : (s.deliver ch).output = s.output := rfl
@[simp] theorem State.deliver_input (ch : Byte) : (s.deliver ch).input = s.input ++ [ch] := rfl
@[simp] theorem State.deliver_trace (ch : Byte) : (s.deliver ch).trace = s.trace := rfl

@[simp] theorem State.withWordsAt_mem (a : Nat) (ws : List Word) : (s.withWordsAt a ws).mem = s.mem.loadFrom a ws := rfl
@[simp] theorem State.withWordsAt_x (a : Nat) (ws : List Word) : (s.withWordsAt a ws).x = s.x := rfl
@[simp] theorem State.withWordsAt_pc (a : Nat) (ws : List Word) : (s.withWordsAt a ws).pc = s.pc := rfl
@[simp] theorem State.withWordsAt_stack (a : Nat) (ws : List Word) : (s.withWordsAt a ws).stack = s.stack := rfl
@[simp] theorem State.withWordsAt_status (a : Nat) (ws : List Word) : (s.withWordsAt a ws).status = s.status := rfl
@[simp] theorem State.withWordsAt_faultValue (a : Nat) (ws : List Word) : (s.withWordsAt a ws).faultValue = s.faultValue := rfl
@[simp] theorem State.withWordsAt_output (a : Nat) (ws : List Word) : (s.withWordsAt a ws).output = s.output := rfl
@[simp] theorem State.withWordsAt_input (a : Nat) (ws : List Word) : (s.withWordsAt a ws).input = s.input := rfl
@[simp] theorem State.withWordsAt_trace (a : Nat) (ws : List Word) : (s.withWordsAt a ws).trace = s.trace := rfl

/-- Reading a register after a register write. -/
theorem State.reg_writeReg (r q : RegId) (v : Word) : (s.writeReg r v).reg q = if r = q then v else s.reg q := by
  simp [State.reg, State.writeReg, Vector.getElem_set, Fin.ext_iff]

@[simp] theorem State.reg_writeReg_same (r : RegId) (v : Word) : (s.writeReg r v).reg r = v := by
  simp [State.reg_writeReg]

@[simp] theorem State.reg_writeReg_other (r q : RegId) (v : Word) (h : r ≠ q) : (s.writeReg r v).reg q = s.reg q := by
  simp [State.reg_writeReg, h]

@[simp] theorem State.reg_jump (t : Word) (q : RegId) : (s.jump t).reg q = s.reg q := rfl
@[simp] theorem State.reg_push (v : Word) (q : RegId) : (s.push v).reg q = s.reg q := rfl
@[simp] theorem State.reg_emit (v : Word) (q : RegId) : (s.emit v).reg q = s.reg q := rfl
@[simp] theorem State.reg_endRun (st : Status) (q : RegId) : (s.endRun st).reg q = s.reg q := rfl
@[simp] theorem State.reg_faulted (k : Fatal) (info : Word) (q : RegId) : (s.faulted k info).reg q = s.reg q := rfl
@[simp] theorem State.reg_writeMem (a v : Word) (q : RegId) : (s.writeMem a v).reg q = s.reg q := rfl
@[simp] theorem State.reg_fetched (w : Word) (q : RegId) : (s.fetched w).reg q = s.reg q := rfl

/-- What a pop answers: the head of the stack and the state without it. -/
theorem State.popped?_eq_some (v : Word) (t : State) :
    s.popped? = some (v, t) ↔ ∃ rest, s.stack = v :: rest ∧ t = { s with stack := rest } := by
  unfold State.popped?
  split
  case h_1 h => simp [h]
  case h_2 w rest h =>
    constructor
    · intro e
      cases e
      exact ⟨rest, h, rfl⟩
    · rintro ⟨rest', e, rfl⟩
      rw [h] at e
      cases e
      rfl

/-- A pop answers nothing exactly when the stack is empty. -/
theorem State.popped?_eq_none : s.popped? = none ↔ s.stack = [] := by
  unfold State.popped?
  split <;> simp_all

/-- What taking a character answers: the next code, zero-extended, and the state without it. -/
theorem State.takeChar?_eq_some (v : Word) (t : State) :
    s.takeChar? = some (v, t) ↔ ∃ ch rest, s.input = ch :: rest ∧ v = ch.setWidth 16 ∧ t = { s with input := rest } := by
  unfold State.takeChar?
  split
  case h_1 h => simp [h]
  case h_2 c rest h =>
    constructor
    · intro e
      cases e
      exact ⟨c, rest, h, rfl, rfl⟩
    · rintro ⟨ch, rest', e, rfl, rfl⟩
      rw [h] at e
      cases e
      rfl

/-- No character is taken exactly when none has been delivered. -/
theorem State.takeChar?_eq_none : s.takeChar? = none ↔ s.input = [] := by
  unfold State.takeChar?
  split <;> simp_all

end Sys2Proof.Machine
end

