-- ==== Sys2Proof/Laws/Operands.lean ====
section
/-! SUPPORT. What each shared operation of the meanings does: when it goes on, and all it can answer. -/

namespace Sys2Proof.Machine

variable {s t : State}

/-- The program counter after a fetch does not wrap (R16). -/
theorem State.fetched_pc_toNat (w : Word) (h : s.pc.toNat < 32768) : (s.fetched w).pc.toNat = s.pc.toNat + 1 := by
  rw [State.fetched_pc, BitVec.toNat_add, show (1 : Word).toNat = 1 from rfl]
  omega

/-- `raise` always answers the faulted state. -/
@[simp] theorem raise_eq (k : Fatal) (info : Word) : raise k info s = .next (s.faulted k info) := rfl

theorem withFetch_ok (w : Word) (k : State → Result) (h : s.pc.toNat < 32768) : withFetch w s k = k (s.fetched w) := by
  simp [withFetch, Config.memWords, h]

theorem withFetch_bad (w : Word) (k : State → Result) (h : 32768 ≤ s.pc.toNat) :
    withFetch w s k = .next (s.faulted .invalidAddress s.pc) := by
  simp [withFetch, Config.memWords, Nat.not_lt.2 h]

/-- All a fetch can answer. -/
theorem withFetch_next (w : Word) (k : State → Result) (h : withFetch w s k = .next t) :
    (s.pc.toNat < 32768 ∧ k (s.fetched w) = .next t) ∨ (32768 ≤ s.pc.toNat ∧ t = s.faulted .invalidAddress s.pc) := by
  by_cases hp : s.pc.toNat < 32768
  · exact .inl ⟨hp, by rwa [withFetch_ok w k hp] at h⟩
  · rw [withFetch_bad w k (by omega)] at h
    cases h
    exact .inr ⟨by omega, rfl⟩

/-- The value of an operand does not depend on what a fetch changes. -/
@[simp] theorem operandValue?_fetched (o : Operand) (w : Word) : operandValue? o (s.fetched w) = operandValue? o s := by
  cases o <;> rfl

theorem withValue_ok (o : Operand) (k : Word → State → Result) (v : Word) (h : s.pc.toNat < 32768)
    (hv : operandValue? o s = some v) : withValue o s k = k v (s.fetched o.toWord) := by
  simp [withValue, withFetch_ok _ _ h, hv]

/-- All the resolution of a value operand can answer. -/
theorem withValue_next (o : Operand) (k : Word → State → Result) (h : withValue o s k = .next t) :
    (s.pc.toNat < 32768 ∧ ∃ v, operandValue? o s = some v ∧ k v (s.fetched o.toWord) = .next t) ∨
    (s.pc.toNat < 32768 ∧ (∃ w, o = .invalid w) ∧ t = (s.fetched o.toWord).faulted .invalidInstruction o.toWord) ∨
    (32768 ≤ s.pc.toNat ∧ t = s.faulted .invalidAddress s.pc) := by
  rcases withFetch_next _ _ h with ⟨hp, h⟩ | h
  · cases o with
    | literal v => exact .inl ⟨hp, _, rfl, h⟩
    | register r => exact .inl ⟨hp, _, rfl, h⟩
    | invalid w =>
      cases h
      exact .inr (.inl ⟨hp, ⟨w, rfl⟩, rfl⟩)
  · exact .inr (.inr h)

theorem withTarget_ok (r : RegId) (k : RegId → State → Result) (h : s.pc.toNat < 32768) :
    withTarget (.register r) s k = k r (s.fetched (Operand.register r).toWord) := by
  simp [withTarget, withFetch_ok _ _ h, operandTarget?]

/-- All the resolution of a target operand can answer. -/
theorem withTarget_next (o : Operand) (k : RegId → State → Result) (h : withTarget o s k = .next t) :
    (s.pc.toNat < 32768 ∧ ∃ r, o = .register r ∧ k r (s.fetched o.toWord) = .next t) ∨
    (s.pc.toNat < 32768 ∧ operandTarget? o = none ∧ t = (s.fetched o.toWord).faulted .invalidRegisterAddress o.toWord) ∨
    (32768 ≤ s.pc.toNat ∧ t = s.faulted .invalidAddress s.pc) := by
  rcases withFetch_next _ _ h with ⟨hp, h⟩ | h
  · cases o with
    | literal v =>
      cases h
      exact .inr (.inl ⟨hp, rfl, rfl⟩)
    | register r => exact .inl ⟨hp, r, rfl, h⟩
    | invalid w =>
      cases h
      exact .inr (.inl ⟨hp, rfl, rfl⟩)
  · exact .inr (.inr h)

/-- The three-operand shape goes on when the four words are legal and inside memory. -/
theorem threeOperands_ok (op : Word) (r : RegId) (b c : Operand) (vb vc : Word) (k : RegId → Word → Word → State → Result)
    (h : s.pc.toNat + 4 ≤ 32768) (hb : operandValue? b s = some vb) (hc : operandValue? c s = some vc) :
    threeOperands op (.register r) b c s k =
      k r vb vc ((((s.fetched op).fetched (Operand.register r).toWord).fetched b.toWord).fetched c.toWord) := by
  have h1 : s.pc.toNat < 32768 := by omega
  have e1 := State.fetched_pc_toNat op h1
  have h2 : (s.fetched op).pc.toNat < 32768 := by omega
  have e2 := State.fetched_pc_toNat (Operand.register r).toWord h2
  have h3 : ((s.fetched op).fetched (Operand.register r).toWord).pc.toNat < 32768 := by omega
  have e3 := State.fetched_pc_toNat b.toWord h3
  rw [threeOperands, withFetch_ok _ _ h1, withTarget_ok _ _ h2, withValue_ok _ _ vb h3 (by simpa using hb),
    withValue_ok _ _ vc (by omega) (by simpa using hc)]

/-- All the three-operand shape can answer: what is done with its operands, or a fault that has only fetched words. -/
theorem threeOperands_next (op : Word) (a b c : Operand) (k : RegId → Word → Word → State → Result)
    (h : threeOperands op a b c s k = .next t) :
    (s.pc.toNat + 4 ≤ 32768 ∧ ∃ r vb vc, a = .register r ∧ operandValue? b s = some vb ∧ operandValue? c s = some vc ∧
      k r vb vc ((((s.fetched op).fetched a.toWord).fetched b.toWord).fetched c.toWord) = .next t) ∨
    (∃ (ws : List Word) (f : Fatal) (info : Word), ws.length ≤ 4 ∧ t = (ws.foldl State.fetched s).faulted f info) := by
  rcases withFetch_next _ _ h with ⟨h1, h⟩ | ⟨_, rfl⟩
  · have e1 := State.fetched_pc_toNat op h1
    rcases withTarget_next _ _ h with ⟨h2, r, rfl, h⟩ | ⟨_, _, rfl⟩ | ⟨_, rfl⟩
    · have e2 := State.fetched_pc_toNat (Operand.register r).toWord h2
      rcases withValue_next _ _ h with ⟨h3, vb, hb, h⟩ | ⟨_, _, rfl⟩ | ⟨_, rfl⟩
      · have e3 := State.fetched_pc_toNat b.toWord h3
        rcases withValue_next _ _ h with ⟨h4, vc, hc, h⟩ | ⟨_, _, rfl⟩ | ⟨_, rfl⟩
        · exact .inl ⟨by omega, r, vb, vc, rfl, by simpa using hb, by simpa using hc, h⟩
        · exact .inr ⟨[op, _, b.toWord, c.toWord], _, _, by simp, rfl⟩
        · exact .inr ⟨[op, _, b.toWord], _, _, by simp, rfl⟩
      · exact .inr ⟨[op, _, b.toWord], _, _, by simp, rfl⟩
      · exact .inr ⟨[op, _], _, _, by simp, rfl⟩
    · exact .inr ⟨[op, _], _, _, by simp, rfl⟩
    · exact .inr ⟨[op], _, _, by simp, rfl⟩
  · exact .inr ⟨[], _, _, by simp, rfl⟩

/-- All a data read can answer. -/
theorem memRead_next (addr : Word) (k : Word → Result) (h : memRead addr s k = .next t) :
    (addr.toNat < 32768 ∧ k (s.mem.readCell addr.toNat) = .next t) ∨
    (32768 ≤ addr.toNat ∧ t = s.faulted .invalidAddress addr) := by
  unfold memRead at h
  split at h
  case isTrue hp => exact .inl ⟨hp, h⟩
  case isFalse hp =>
    cases h
    exact .inr ⟨Nat.not_lt.1 hp, rfl⟩

theorem memRead_ok (addr : Word) (k : Word → Result) (h : addr.toNat < 32768) :
    memRead addr s k = k (s.mem.readCell addr.toNat) := by
  simp [memRead, Config.memWords, h]

theorem memRead_bad (addr : Word) (k : Word → Result) (h : 32768 ≤ addr.toNat) :
    memRead addr s k = .next (s.faulted .invalidAddress addr) := by
  simp [memRead, Config.memWords, Nat.not_lt.2 h]

/-- All a data write can answer. -/
theorem memWrite_next (addr v : Word) (h : memWrite addr v s = .next t) :
    (addr.toNat < 32768 ∧ t = s.writeMem addr v) ∨ (32768 ≤ addr.toNat ∧ t = s.faulted .invalidAddress addr) := by
  unfold memWrite at h
  split at h
  case isTrue hp =>
    cases h
    exact .inl ⟨hp, rfl⟩
  case isFalse hp =>
    cases h
    exact .inr ⟨Nat.not_lt.1 hp, rfl⟩

theorem memWrite_ok (addr v : Word) (h : addr.toNat < 32768) : memWrite addr v s = .next (s.writeMem addr v) := by
  simp [memWrite, Config.memWords, h]

theorem memWrite_bad (addr v : Word) (h : 32768 ≤ addr.toNat) :
    memWrite addr v s = .next (s.faulted .invalidAddress addr) := by
  simp [memWrite, Config.memWords, Nat.not_lt.2 h]

/-- All the write of `in` can answer. -/
theorem writeDestination_next (a : Operand) (ch : Word) (h : writeDestination a ch s = .next t) :
    (∃ r, a = .register r ∧ t = s.writeReg r ch) ∨
    (∃ v, a = .literal v ∧ t = s.writeMem (v.setWidth 16) ch) ∨
    (∃ w, a = .invalid w ∧ t = s.faulted .invalidAddress w) := by
  cases a with
  | register r =>
    cases h
    exact .inl ⟨r, rfl, rfl⟩
  | literal v =>
    have hv : (v.setWidth 16 : Word).toNat < 32768 := by
      have := v.isLt
      rw [BitVec.toNat_setWidth]
      omega
    rcases memWrite_next _ _ h with ⟨_, rfl⟩ | ⟨hb, _⟩
    · exact .inr (.inl ⟨v, rfl, rfl⟩)
    · omega
  | invalid w =>
    cases h
    exact .inr (.inr ⟨w, rfl, rfl⟩)

/-- What the machine does next, by status. -/
theorem nextTurn_running (h : s.status = .running) : nextTurn s = fetchTurn s := by simp [nextTurn, h]

theorem nextTurn_ready (h : s.status = .ready) : nextTurn s = .settle { s with status := .running } := by
  simp [nextTurn, h, State.run]

/-- Only a running machine executes an instruction, and then pc is a valid address and the words there decode to it. -/
theorem nextTurn_execute (i : Instr) (h : nextTurn s = .execute i) :
    s.status = .running ∧ s.pc.toNat < 32768 ∧ ∃ rest, decode s.fetchWindow = .ok (i, rest) := by
  unfold nextTurn at h
  split at h
  case h_2 hs =>
    refine ⟨hs, ?_⟩
    unfold fetchTurn at h
    split at h
    case isTrue hp =>
      refine ⟨hp, ?_⟩
      split at h
      case h_1 j rest hd =>
        cases h
        exact ⟨rest, hd⟩
      all_goals cases h
    case isFalse => cases h
  all_goals cases h

/-- All that the fetch of a running machine can give. -/
theorem fetchTurn_cases (s : State) :
    (∃ i rest, s.pc.toNat < 32768 ∧ decode s.fetchWindow = .ok (i, rest) ∧ fetchTurn s = .execute i) ∨
    (∃ w, s.pc.toNat < 32768 ∧ decode s.fetchWindow = .error (.undefinedOpcode w) ∧
      fetchTurn s = .settle ((s.fetched w).faulted .undefinedOpcode w)) ∨
    (32768 ≤ s.pc.toNat ∧ fetchTurn s = .settle (s.faulted .invalidAddress s.pc)) := by
  unfold fetchTurn
  split
  case isTrue hp =>
    split
    case h_1 i rest hd => exact .inl ⟨i, rest, hp, hd, rfl⟩
    case h_2 w hd => exact .inr (.inl ⟨w, hp, hd, rfl⟩)
    case h_3 hd => exact absurd hd (decode_window_not_truncated _ _ _ _)
  case isFalse hp => exact .inr (.inr ⟨Nat.not_lt.1 hp, rfl⟩)

/-- Everything a step can do: the inversion of `step`. -/
theorem step_cases (h : step s = .next t) :
    (s.status = .ready ∧ t = { s with status := .running }) ∨
    (s.status = .running ∧ s.pc.toNat < 32768 ∧ ∃ i rest, decode s.fetchWindow = .ok (i, rest) ∧
      nextTurn s = .execute i ∧ exec i s = .next t) ∨
    (s.status = .running ∧ s.pc.toNat < 32768 ∧ ∃ w, decode s.fetchWindow = .error (.undefinedOpcode w) ∧
      t = (s.fetched w).faulted .undefinedOpcode w) ∨
    (s.status = .running ∧ 32768 ≤ s.pc.toNat ∧ t = s.faulted .invalidAddress s.pc) ∨
    ((s.status = .halted ∨ s.status = .haltedUnderflow ∨ ∃ k, s.status = .fatal k) ∧ t = s) := by
  unfold step at h
  cases hs : s.status with
  | ready =>
    rw [nextTurn_ready hs] at h
    cases h
    exact .inl ⟨rfl, rfl⟩
  | running =>
    rw [nextTurn_running hs] at h
    rcases fetchTurn_cases s with ⟨i, rest, hp, hd, hf⟩ | ⟨w, hp, hd, hf⟩ | ⟨hp, hf⟩
    · rw [hf] at h
      exact .inr (.inl ⟨rfl, hp, i, rest, hd, by rw [nextTurn_running hs, hf], h⟩)
    · rw [hf] at h
      cases h
      exact .inr (.inr (.inl ⟨rfl, hp, w, hd, rfl⟩))
    · rw [hf] at h
      cases h
      exact .inr (.inr (.inr (.inl ⟨rfl, hp, rfl⟩)))
  | halted =>
    simp only [nextTurn, hs] at h
    cases h
    exact .inr (.inr (.inr (.inr ⟨.inl rfl, rfl⟩)))
  | haltedUnderflow =>
    simp only [nextTurn, hs] at h
    cases h
    exact .inr (.inr (.inr (.inr ⟨.inr (.inl rfl), rfl⟩)))
  | fatal k =>
    simp only [nextTurn, hs] at h
    cases h
    exact .inr (.inr (.inr (.inr ⟨.inr (.inr ⟨k, rfl⟩), rfl⟩)))

end Sys2Proof.Machine
end

