-- ==== Sys2Proof/Laws/Exec.lean ====
section
/-! SUPPORT. What fetching a run of words leaves, and how a scan of operand words (R130) meets the resolution of one operand. -/

namespace Sys2Proof.Machine

variable {s t : State}

/-! Each meaning as the fetches, resolutions and effect it is made of. -/

theorem exec_halt : exec .halt s = withFetch 0 s fun s => .next (s.endRun .halted) := rfl
theorem exec_noop : exec .noop s = withFetch 21 s fun s => .next s := rfl
theorem exec_set (a b : Operand) : exec (.set a b) s =
    withFetch 1 s fun s => withTarget a s fun r s => withValue b s fun vb s => .next (s.writeReg r vb) := rfl
theorem exec_not (a b : Operand) : exec (.not a b) s =
    withFetch 14 s fun s => withTarget a s fun r s => withValue b s fun vb s => .next (s.writeReg r (aluNot vb)) := rfl
theorem exec_rmem (a b : Operand) : exec (.rmem a b) s =
    withFetch 15 s fun s => withTarget a s fun r s => withValue b s fun vb s =>
      memRead vb s fun v => .next (s.writeReg r v) := rfl
theorem exec_wmem (a b : Operand) : exec (.wmem a b) s =
    withFetch 16 s fun s => withValue a s fun va s => withValue b s fun vb s => memWrite va vb s := rfl
theorem exec_eq (a b c : Operand) : exec (.eq a b c) s =
    threeOperands 4 a b c s fun r vb vc s => .next (s.writeReg r (condEq vb vc)) := rfl
theorem exec_gt (a b c : Operand) : exec (.gt a b c) s =
    threeOperands 5 a b c s fun r vb vc s => .next (s.writeReg r (condGt vb vc)) := rfl
theorem exec_add (a b c : Operand) : exec (.add a b c) s =
    threeOperands 9 a b c s fun r vb vc s => .next (s.writeReg r (aluAdd vb vc)) := rfl
theorem exec_mult (a b c : Operand) : exec (.mult a b c) s =
    threeOperands 10 a b c s fun r vb vc s => .next (s.writeReg r (aluMult vb vc)) := rfl
theorem exec_mod (a b c : Operand) : exec (.mod a b c) s =
    threeOperands 11 a b c s fun r vb vc s =>
      if vc = 0 then raise .moduloByZero vb s else .next (s.writeReg r (aluMod vb vc)) := rfl
theorem exec_and (a b c : Operand) : exec (.and a b c) s =
    threeOperands 12 a b c s fun r vb vc s => .next (s.writeReg r (aluAnd vb vc)) := rfl
theorem exec_or (a b c : Operand) : exec (.or a b c) s =
    threeOperands 13 a b c s fun r vb vc s => .next (s.writeReg r (aluOr vb vc)) := rfl
theorem exec_push (a : Operand) : exec (.push a) s =
    withFetch 2 s fun s => withValue a s fun va s => .next (s.push va) := rfl
theorem exec_pop (a : Operand) : exec (.pop a) s =
    withFetch 3 s fun s => withTarget a s fun r s =>
      match s.popped? with
      | some (v, s) => .next (s.writeReg r v)
      | none => .next (s.endRun .haltedUnderflow) := rfl
theorem exec_jmp (a : Operand) : exec (.jmp a) s =
    withFetch 6 s fun s => withValue a s fun va s => .next (s.jump va) := rfl
theorem exec_jt (a b : Operand) : exec (.jt a b) s =
    withFetch 7 s fun s => withValue a s fun va s => withValue b s fun vb s =>
      .next (if isNonzero va then s.jump vb else s) := rfl
theorem exec_jf (a b : Operand) : exec (.jf a b) s =
    withFetch 8 s fun s => withValue a s fun va s => withValue b s fun vb s =>
      .next (if isNonzero va then s else s.jump vb) := rfl
theorem exec_call (a : Operand) : exec (.call a) s =
    withFetch 17 s fun s => withValue a s fun va s' => .next ((s'.push (s.pc + 1)).jump va) := rfl
theorem exec_ret : exec .ret s =
    withFetch 18 s fun s =>
      match s.popped? with
      | some (v, s) => .next (s.jump v)
      | none => .next (s.endRun .haltedUnderflow) := rfl
theorem exec_out (a : Operand) : exec (.out a) s =
    withFetch 19 s fun s => withValue a s fun va s => .next (s.emit va) := rfl
theorem exec_inp (a : Operand) : exec (.inp a) s =
    withFetch 20 s fun s' =>
      match s'.takeChar? with
      | none => .next s
      | some (ch, s') => withFetch a.toWord s' fun s' => writeDestination a ch s' := rfl

/-- Fetching words one after another: pc past them, one trace event each, all else as it was. -/
theorem State.foldl_fetched (ws : List Word) (s : State) :
    ws.foldl State.fetched s =
      { s with pc := s.pc + BitVec.ofNat 16 ws.length, trace := s.trace ++ fetchEvents s.pc ws } := by
  induction ws generalizing s with
  | nil => simp [fetchEvents]
  | cons w ws ih =>
    have e : s.pc + 1 + BitVec.ofNat 16 ws.length = s.pc + BitVec.ofNat 16 (ws.length + 1) := by
      rw [BitVec.add_assoc]
      congr 1
      apply BitVec.eq_of_toNat_eq
      simp only [BitVec.toNat_add, BitVec.toNat_ofNat, show (1 : Word).toNat = 1 from rfl]
      omega
    simp only [List.foldl_cons, ih, State.fetched, List.length_cons, fetchEvents, e]
    simp

/-- The state a fault leaves is the faulted state after the words fetched. -/
theorem State.afterFault_eq (s : State) (i : Instr) (f : FaultReport) (h : f.fetched ≤ (encode i).length) :
    s.afterFault i f = (((encode i).take f.fetched).foldl State.fetched s).faulted f.kind f.info := by
  rw [State.foldl_fetched]
  simp [State.afterFault, State.faulted, List.length_take, Nat.min_eq_left h]

/-- The word of an address that pc holds. -/
theorem ofNat_eq_pc (n : Nat) (h : s.pc.toNat = n) : BitVec.ofNat 16 n = s.pc := by
  rw [← h]
  simp

/-- A scan that begins at a value operand, beside the resolution of that operand. -/
theorem withValue_scan (p n : Nat) (o : Operand) (rest : List (OperandKind × Operand)) (f : FaultReport)
    (k : Word → State → Result) (hp : s.pc.toNat = p + n) (h : scanOperands p n ((.value, o) :: rest) = some f) :
    (withValue o s k = .next (s.faulted f.kind f.info) ∧ f.fetched = n) ∨
    (withValue o s k = .next ((s.fetched o.toWord).faulted f.kind f.info) ∧ f.fetched = n + 1) ∨
    (∃ v, withValue o s k = k v (s.fetched o.toWord) ∧ operandValue? o s = some v ∧
      (s.fetched o.toWord).pc.toNat = p + (n + 1) ∧ scanOperands p (n + 1) rest = some f) := by
  simp only [scanOperands] at h
  by_cases hb : 32768 ≤ p + n
  · rw [if_pos hb] at h
    cases h
    exact .inl ⟨by rw [withValue, withFetch_bad _ _ (by omega), ofNat_eq_pc _ hp], rfl⟩
  · rw [if_neg hb] at h
    have hlt : s.pc.toNat < 32768 := by omega
    have e := State.fetched_pc_toNat o.toWord hlt
    cases o with
    | literal v => exact .inr (.inr ⟨_, withValue_ok _ _ _ hlt rfl, rfl, by omega, h⟩)
    | register r => exact .inr (.inr ⟨_, withValue_ok _ _ _ hlt rfl, rfl, by omega, h⟩)
    | invalid w =>
      cases h
      exact .inr (.inl ⟨by rw [withValue, withFetch_ok _ _ hlt]; rfl, rfl⟩)

/-- A scan that begins at a target operand, beside the resolution of that operand. -/
theorem withTarget_scan (p n : Nat) (o : Operand) (rest : List (OperandKind × Operand)) (f : FaultReport)
    (k : RegId → State → Result) (hp : s.pc.toNat = p + n) (h : scanOperands p n ((.target, o) :: rest) = some f) :
    (withTarget o s k = .next (s.faulted f.kind f.info) ∧ f.fetched = n) ∨
    (withTarget o s k = .next ((s.fetched o.toWord).faulted f.kind f.info) ∧ f.fetched = n + 1) ∨
    (∃ r, withTarget o s k = k r (s.fetched o.toWord) ∧ o = .register r ∧
      (s.fetched o.toWord).pc.toNat = p + (n + 1) ∧ scanOperands p (n + 1) rest = some f) := by
  simp only [scanOperands] at h
  by_cases hb : 32768 ≤ p + n
  · rw [if_pos hb] at h
    cases h
    exact .inl ⟨by rw [withTarget, withFetch_bad _ _ (by omega), ofNat_eq_pc _ hp], rfl⟩
  · rw [if_neg hb] at h
    have hlt : s.pc.toNat < 32768 := by omega
    have e := State.fetched_pc_toNat o.toWord hlt
    cases o with
    | literal v =>
      cases h
      exact .inr (.inl ⟨by rw [withTarget, withFetch_ok _ _ hlt]; rfl, rfl⟩)
    | register r => exact .inr (.inr ⟨_, withTarget_ok _ _ hlt, rfl, by omega, h⟩)
    | invalid w =>
      cases h
      exact .inr (.inl ⟨by rw [withTarget, withFetch_ok _ _ hlt]; rfl, rfl⟩)

/-- The fault of an instruction's words is at the opcode fetch or among its operand words. -/
theorem operandFault?_cases (i : Instr) (f : FaultReport) (h : operandFault? i s.pc = some f) :
    (32768 ≤ s.pc.toNat ∧ f = ⟨.invalidAddress, s.pc, 0⟩) ∨
    (s.pc.toNat < 32768 ∧ scanOperands s.pc.toNat 1 (i.kinds.zip i.operands) = some f) := by
  unfold operandFault? at h
  split at h
  case isTrue hp =>
    cases h
    exact .inl ⟨hp, rfl⟩
  case isFalse hp => exact .inr ⟨Nat.not_le.1 hp, h⟩

end Sys2Proof.Machine
end

