-- ==== Sys2Proof/Laws/Inversion.lean ====
section
/-! SUPPORT. The inversion of exec: once and for all, everything an instruction can answer. -/

namespace Sys2Proof.Machine

variable {s t : State}

/-- No instruction has more than four words (R45). -/
theorem encode_length_le_four (i : Instr) : (encode i).length ≤ 4 := by cases i <;> simp [encode, Instr.operands]

/-- `t` is `s` after fetching some first words of `i` and raising a fatal condition with a cause of R120; nothing else has changed. -/
def WordsThenFault (i : Instr) (s t : State) : Prop :=
  ∃ (ws : List Word) (f : Fatal) (info : Word), ws <+: encode i ∧ s.pc.toNat + ws.length ≤ t.pc.toNat ∧
    (ws = [] ∨ s.pc.toNat + ws.length ≤ 32768) ∧ t = (ws.foldl State.fetched s).faulted f info ∧
    (f = .invalidInstruction → ∃ w, (OperandKind.value, Operand.invalid w) ∈ i.kinds.zip i.operands ∧ info = w) ∧
    (f = .invalidRegisterAddress → ∃ o, (OperandKind.target, o) ∈ i.kinds.zip i.operands ∧ operandTarget? o = none ∧ info = o.toWord) ∧
    (f = .invalidAddress → 32768 ≤ info.toNat ∧
      ((ws.length < (encode i).length ∧ info = t.pc) ∨ (ws = encode i ∧ dataAddress? i s = some info))) ∧
    (f = .moduloByZero → ∃ a b c, i = .mod a b c ∧ operandValue? c s = some 0 ∧ operandValue? b s = some info) ∧ f ≠ .undefinedOpcode

/-- A fault in the reading of a word, or one of the execution. -/
theorem WordsThenFault.intro (i : Instr) (s t : State) (ws : List Word) (f : Fatal) (info : Word) (h4 : ws <+: encode i)
    (h5 : s.pc.toNat + ws.length ≤ t.pc.toNat) (ht : t = (ws.foldl State.fetched s).faulted f info)
    (h1 : f = .invalidInstruction → ∃ w, (OperandKind.value, Operand.invalid w) ∈ i.kinds.zip i.operands ∧ info = w)
    (h2 : f = .invalidRegisterAddress → ∃ o, (OperandKind.target, o) ∈ i.kinds.zip i.operands ∧ operandTarget? o = none ∧ info = o.toWord)
    (h3 : f = .invalidAddress → 32768 ≤ info.toNat ∧ ws = encode i ∧ dataAddress? i s = some info)
    (h6 : f = .moduloByZero → ∃ a b c, i = .mod a b c ∧ operandValue? c s = some 0 ∧ operandValue? b s = some info)
    (h7 : f ≠ .undefinedOpcode)
    (h8 : ws = [] ∨ s.pc.toNat + ws.length ≤ 32768 := by
      first | exact .inl rfl | (right; simp [encode, Instr.operands]; omega)) :
    WordsThenFault i s t :=
  ⟨ws, f, info, h4, h5, h8, ht, h1, h2, fun h => ⟨(h3 h).1, .inr (h3 h).2⟩, h6, h7⟩

/-- A fault at the fetch of the word after `ws`. -/
theorem WordsThenFault.atFetch (i : Instr) (s t : State) (ws : List Word) (h4 : ws <+: encode i) (hlt : ws.length < (encode i).length)
    (h5 : s.pc.toNat + ws.length ≤ t.pc.toNat) (hb : 32768 ≤ (ws.foldl State.fetched s).pc.toNat)
    (ht : t = (ws.foldl State.fetched s).faulted .invalidAddress (ws.foldl State.fetched s).pc)
    (h8 : ws = [] ∨ s.pc.toNat + ws.length ≤ 32768 := by
      first | exact .inl rfl | (right; simp [encode, Instr.operands]; omega)) :
    WordsThenFault i s t :=
  ⟨ws, .invalidAddress, _, h4, h5, h8, ht, nofun, nofun, fun _ => ⟨hb, .inl ⟨hlt, by rw [ht]; rfl⟩⟩, nofun, nofun⟩

/-- `t` is `s` after the completed instruction `i`: all its words fetched, and then its own effect. -/
def Completes (i : Instr) (s t : State) : Prop :=
  let u := (encode i).foldl State.fetched s
  s.pc.toNat + (encode i).length ≤ 32768 ∧ u.pc.toNat = s.pc.toNat + (encode i).length ∧
  match i with
  | .halt => t = u.endRun .halted
  | .noop => t = u
  | .set a b => ∃ r v, a = .register r ∧ operandValue? b s = some v ∧ t = u.writeReg r v
  | .not a b => ∃ r v, a = .register r ∧ operandValue? b s = some v ∧ t = u.writeReg r (aluNot v)
  | .rmem a b => ∃ r v, a = .register r ∧ operandValue? b s = some v ∧ v.toNat < 32768 ∧ t = u.writeReg r (s.mem.readCell v.toNat)
  | .wmem a b => ∃ va vb, operandValue? a s = some va ∧ operandValue? b s = some vb ∧ va.toNat < 32768 ∧ t = u.writeMem va vb
  | .eq a b c => ∃ r vb vc, a = .register r ∧ operandValue? b s = some vb ∧ operandValue? c s = some vc ∧ t = u.writeReg r (condEq vb vc)
  | .gt a b c => ∃ r vb vc, a = .register r ∧ operandValue? b s = some vb ∧ operandValue? c s = some vc ∧ t = u.writeReg r (condGt vb vc)
  | .add a b c => ∃ r vb vc, a = .register r ∧ operandValue? b s = some vb ∧ operandValue? c s = some vc ∧ t = u.writeReg r (aluAdd vb vc)
  | .mult a b c => ∃ r vb vc, a = .register r ∧ operandValue? b s = some vb ∧ operandValue? c s = some vc ∧ t = u.writeReg r (aluMult vb vc)
  | .mod a b c => ∃ r vb vc, a = .register r ∧ operandValue? b s = some vb ∧ operandValue? c s = some vc ∧ vc ≠ 0 ∧ t = u.writeReg r (aluMod vb vc)
  | .and a b c => ∃ r vb vc, a = .register r ∧ operandValue? b s = some vb ∧ operandValue? c s = some vc ∧ t = u.writeReg r (aluAnd vb vc)
  | .or a b c => ∃ r vb vc, a = .register r ∧ operandValue? b s = some vb ∧ operandValue? c s = some vc ∧ t = u.writeReg r (aluOr vb vc)
  | .push a => ∃ v, operandValue? a s = some v ∧ t = u.push v
  | .pop a => ∃ r, a = .register r ∧ ((∃ v rest, s.stack = v :: rest ∧ t = {u with stack := rest}.writeReg r v) ∨ (s.stack = [] ∧ t = u.endRun .haltedUnderflow))
  | .jmp a => ∃ v, operandValue? a s = some v ∧ t = u.jump v
  | .jt a b => ∃ va vb, operandValue? a s = some va ∧ operandValue? b s = some vb ∧ (t = u.jump vb ∨ t = u)
  | .jf a b => ∃ va vb, operandValue? a s = some va ∧ operandValue? b s = some vb ∧ (t = u.jump vb ∨ t = u)
  | .call a => ∃ v, operandValue? a s = some v ∧ t = (u.push (s.pc + 2)).jump v
  | .ret => ((∃ v rest, s.stack = v :: rest ∧ t = {u with stack := rest}.jump v) ∨ (s.stack = [] ∧ t = u.endRun .haltedUnderflow))
  | .out a => ∃ v, operandValue? a s = some v ∧ t = u.emit v
  | .inp a => ∃ ch rest, s.input = ch :: rest ∧ ((∃ r, a = .register r ∧ t = {u with input := rest}.writeReg r (ch.setWidth 16)) ∨ (∃ v, a = .literal v ∧ t = {u with input := rest}.writeMem (v.setWidth 16) (ch.setWidth 16)))

/-- All that an instruction with a value for operands can answer before its own effect. -/
theorem operands_v_next (i : Instr) (op : Word) (a : Operand) (k : State → Word → State → Result) (hen : encode i = [op, a.toWord])
    (hz : i.kinds.zip i.operands = [(.value, a)])
    (h : (withFetch op s fun s => withValue a s (k s)) = .next t) :
    WordsThenFault i s t ∨ (s.pc.toNat + 2 ≤ 32768 ∧ ((encode i).foldl State.fetched s).pc.toNat = s.pc.toNat + 2 ∧ ∃ v, operandValue? a s = some v ∧ k (s.fetched op) v ((encode i).foldl State.fetched s) = .next t) := by
  rcases withFetch_next _ _ h with ⟨h1, h⟩ | ⟨hb, ht⟩
  · have e1 := State.fetched_pc_toNat op h1
    rcases withValue_next _ _ h with ⟨h2, v, hv, h⟩ | ⟨h2, ⟨w, rfl⟩, rfl⟩ | ⟨hb, ht⟩
    · have e2 := State.fetched_pc_toNat a.toWord h2
      refine .inr ⟨by omega, ?_, v, by simpa using hv, ?_⟩
      · rw [hen]; show ((s.fetched op).fetched a.toWord).pc.toNat = _; omega
      · rw [hen]; exact h
    · have e2 := State.fetched_pc_toNat (Operand.invalid w).toWord h2
      exact .inl (WordsThenFault.intro _ _ _ [op, (Operand.invalid w).toWord] _ _ (by simp [hen]) (by simp only [State.faulted_pc, List.length]; omega) rfl (by simp [hz, Operand.toWord]) nofun nofun nofun nofun)
    · exact .inl (WordsThenFault.atFetch _ _ _ [op] (by simp [hen]) (by simp [hen]) (by simp [ht, -State.fetched_pc, e1]) hb ht)
  · exact .inl (WordsThenFault.atFetch _ _ _ [] (by simp [hen]) (by simp [hen]) (by simp [ht]) hb ht)

/-- All that an instruction with a target for operands can answer before its own effect. -/
theorem operands_t_next (i : Instr) (op : Word) (a : Operand) (k : RegId → State → Result) (hen : encode i = [op, a.toWord])
    (hz : i.kinds.zip i.operands = [(.target, a)])
    (h : (withFetch op s fun s => withTarget a s k) = .next t) :
    WordsThenFault i s t ∨ (s.pc.toNat + 2 ≤ 32768 ∧ ((encode i).foldl State.fetched s).pc.toNat = s.pc.toNat + 2 ∧ ∃ v, a = .register v ∧ k v ((encode i).foldl State.fetched s) = .next t) := by
  rcases withFetch_next _ _ h with ⟨h1, h⟩ | ⟨hb, ht⟩
  · have e1 := State.fetched_pc_toNat op h1
    rcases withTarget_next _ _ h with ⟨h2, v, hv, h⟩ | ⟨h2, hn, rfl⟩ | ⟨hb, ht⟩
    · have e2 := State.fetched_pc_toNat a.toWord h2
      refine .inr ⟨by omega, ?_, v, hv, ?_⟩
      · rw [hen]; show ((s.fetched op).fetched a.toWord).pc.toNat = _; omega
      · rw [hen]; exact h
    · have e2 := State.fetched_pc_toNat a.toWord h2
      exact .inl (WordsThenFault.intro _ _ _ [op, a.toWord] _ _ (by simp [hen]) (by simp only [State.faulted_pc, List.length]; omega) rfl nofun (by intro _; exact ⟨a, by simp [hz], hn, rfl⟩) nofun nofun nofun)
    · exact .inl (WordsThenFault.atFetch _ _ _ [op] (by simp [hen]) (by simp [hen]) (by simp [ht, -State.fetched_pc, e1]) hb ht)
  · exact .inl (WordsThenFault.atFetch _ _ _ [] (by simp [hen]) (by simp [hen]) (by simp [ht]) hb ht)

/-- All that an instruction with two values for operands can answer before its own effect. -/
theorem operands_vv_next (i : Instr) (op : Word) (a b : Operand) (k : Word → Word → State → Result) (hen : encode i = [op, a.toWord, b.toWord])
    (hz : i.kinds.zip i.operands = [(.value, a), (.value, b)])
    (h : (withFetch op s fun s => withValue a s fun va s => withValue b s fun vb s => k va vb s) = .next t) :
    WordsThenFault i s t ∨ (s.pc.toNat + 3 ≤ 32768 ∧ ((encode i).foldl State.fetched s).pc.toNat = s.pc.toNat + 3 ∧ ∃ va vb, operandValue? a s = some va ∧ operandValue? b s = some vb ∧ k va vb ((encode i).foldl State.fetched s) = .next t) := by
  rcases withFetch_next _ _ h with ⟨h1, h⟩ | ⟨hb, ht⟩
  · have e1 := State.fetched_pc_toNat op h1
    rcases withValue_next _ _ h with ⟨h2, v, hv, h⟩ | ⟨h2, ⟨w, rfl⟩, rfl⟩ | ⟨hb, ht⟩
    · have e2 := State.fetched_pc_toNat a.toWord h2
      rcases withValue_next _ _ h with ⟨h3, v2, hv2, h⟩ | ⟨h3, ⟨w, rfl⟩, rfl⟩ | ⟨hb, ht⟩
      · have e3 := State.fetched_pc_toNat b.toWord h3
        refine .inr ⟨by omega, ?_, v, v2, by simpa using hv, by simpa using hv2, ?_⟩
        · rw [hen]; show (((s.fetched op).fetched a.toWord).fetched b.toWord).pc.toNat = _; omega
        · rw [hen]; exact h
      · have e3 := State.fetched_pc_toNat (Operand.invalid w).toWord h3
        exact .inl (WordsThenFault.intro _ _ _ [op, a.toWord, (Operand.invalid w).toWord] _ _ (by simp [hen]) (by simp only [State.faulted_pc, List.length]; omega) rfl (by simp [hz, Operand.toWord]) nofun nofun nofun nofun)
      · exact .inl (WordsThenFault.atFetch _ _ _ [op, a.toWord] (by simp [hen]) (by simp [hen]) (by simp only [ht, State.faulted_pc, List.length]; omega) hb ht)
    · have e2 := State.fetched_pc_toNat (Operand.invalid w).toWord h2
      exact .inl (WordsThenFault.intro _ _ _ [op, (Operand.invalid w).toWord] _ _ (by simp [hen]) (by simp only [State.faulted_pc, List.length]; omega) rfl (by simp [hz, Operand.toWord]) nofun nofun nofun nofun)
    · exact .inl (WordsThenFault.atFetch _ _ _ [op] (by simp [hen]) (by simp [hen]) (by simp [ht, -State.fetched_pc, e1]) hb ht)
  · exact .inl (WordsThenFault.atFetch _ _ _ [] (by simp [hen]) (by simp [hen]) (by simp [ht]) hb ht)

/-- All that an instruction with a target and a value for operands can answer before its own effect. -/
theorem operands_tv_next (i : Instr) (op : Word) (a b : Operand) (k : RegId → Word → State → Result) (hen : encode i = [op, a.toWord, b.toWord])
    (hz : i.kinds.zip i.operands = [(.target, a), (.value, b)])
    (h : (withFetch op s fun s => withTarget a s fun va s => withValue b s fun vb s => k va vb s) = .next t) :
    WordsThenFault i s t ∨ (s.pc.toNat + 3 ≤ 32768 ∧ ((encode i).foldl State.fetched s).pc.toNat = s.pc.toNat + 3 ∧ ∃ va vb, a = .register va ∧ operandValue? b s = some vb ∧ k va vb ((encode i).foldl State.fetched s) = .next t) := by
  rcases withFetch_next _ _ h with ⟨h1, h⟩ | ⟨hb, ht⟩
  · have e1 := State.fetched_pc_toNat op h1
    rcases withTarget_next _ _ h with ⟨h2, v, hv, h⟩ | ⟨h2, hn, rfl⟩ | ⟨hb, ht⟩
    · have e2 := State.fetched_pc_toNat a.toWord h2
      rcases withValue_next _ _ h with ⟨h3, v2, hv2, h⟩ | ⟨h3, ⟨w, rfl⟩, rfl⟩ | ⟨hb, ht⟩
      · have e3 := State.fetched_pc_toNat b.toWord h3
        refine .inr ⟨by omega, ?_, v, v2, hv, by simpa using hv2, ?_⟩
        · rw [hen]; show (((s.fetched op).fetched a.toWord).fetched b.toWord).pc.toNat = _; omega
        · rw [hen]; exact h
      · have e3 := State.fetched_pc_toNat (Operand.invalid w).toWord h3
        exact .inl (WordsThenFault.intro _ _ _ [op, a.toWord, (Operand.invalid w).toWord] _ _ (by simp [hen]) (by simp only [State.faulted_pc, List.length]; omega) rfl (by simp [hz, Operand.toWord]) nofun nofun nofun nofun)
      · exact .inl (WordsThenFault.atFetch _ _ _ [op, a.toWord] (by simp [hen]) (by simp [hen]) (by simp only [ht, State.faulted_pc, List.length]; omega) hb ht)
    · have e2 := State.fetched_pc_toNat a.toWord h2
      exact .inl (WordsThenFault.intro _ _ _ [op, a.toWord] _ _ (by simp [hen]) (by simp only [State.faulted_pc, List.length]; omega) rfl nofun (by intro _; exact ⟨a, by simp [hz], hn, rfl⟩) nofun nofun nofun)
    · exact .inl (WordsThenFault.atFetch _ _ _ [op] (by simp [hen]) (by simp [hen]) (by simp [ht, -State.fetched_pc, e1]) hb ht)
  · exact .inl (WordsThenFault.atFetch _ _ _ [] (by simp [hen]) (by simp [hen]) (by simp [ht]) hb ht)

/-- All that an instruction with a target and two values for operands can answer before its own effect. -/
theorem operands_tvv_next (i : Instr) (op : Word) (a b c : Operand) (k : RegId → Word → Word → State → Result) (hen : encode i = [op, a.toWord, b.toWord, c.toWord])
    (hz : i.kinds.zip i.operands = [(.target, a), (.value, b), (.value, c)])
    (h : threeOperands op a b c s k = .next t) :
    WordsThenFault i s t ∨ (s.pc.toNat + 4 ≤ 32768 ∧ ((encode i).foldl State.fetched s).pc.toNat = s.pc.toNat + 4 ∧ ∃ va vb vc, a = .register va ∧ operandValue? b s = some vb ∧ operandValue? c s = some vc ∧ k va vb vc ((encode i).foldl State.fetched s) = .next t) := by
  rcases withFetch_next _ _ h with ⟨h1, h⟩ | ⟨hb, ht⟩
  · have e1 := State.fetched_pc_toNat op h1
    rcases withTarget_next _ _ h with ⟨h2, v, hv, h⟩ | ⟨h2, hn, rfl⟩ | ⟨hb, ht⟩
    · have e2 := State.fetched_pc_toNat a.toWord h2
      rcases withValue_next _ _ h with ⟨h3, v2, hv2, h⟩ | ⟨h3, ⟨w, rfl⟩, rfl⟩ | ⟨hb, ht⟩
      · have e3 := State.fetched_pc_toNat b.toWord h3
        rcases withValue_next _ _ h with ⟨h4, v3, hv3, h⟩ | ⟨h4, ⟨w, rfl⟩, rfl⟩ | ⟨hb, ht⟩
        · have e4 := State.fetched_pc_toNat c.toWord h4
          refine .inr ⟨by omega, ?_, v, v2, v3, hv, by simpa using hv2, by simpa using hv3, ?_⟩
          · rw [hen]; show ((((s.fetched op).fetched a.toWord).fetched b.toWord).fetched c.toWord).pc.toNat = _; omega
          · rw [hen]; exact h
        · have e4 := State.fetched_pc_toNat (Operand.invalid w).toWord h4
          exact .inl (WordsThenFault.intro _ _ _ [op, a.toWord, b.toWord, (Operand.invalid w).toWord] _ _ (by simp [hen]) (by simp only [State.faulted_pc, List.length]; omega) rfl (by simp [hz, Operand.toWord]) nofun nofun nofun nofun)
        · exact .inl (WordsThenFault.atFetch _ _ _ [op, a.toWord, b.toWord] (by simp [hen]) (by simp [hen]) (by simp only [ht, State.faulted_pc, List.length]; omega) hb ht)
      · have e3 := State.fetched_pc_toNat (Operand.invalid w).toWord h3
        exact .inl (WordsThenFault.intro _ _ _ [op, a.toWord, (Operand.invalid w).toWord] _ _ (by simp [hen]) (by simp only [State.faulted_pc, List.length]; omega) rfl (by simp [hz, Operand.toWord]) nofun nofun nofun nofun)
      · exact .inl (WordsThenFault.atFetch _ _ _ [op, a.toWord] (by simp [hen]) (by simp [hen]) (by simp only [ht, State.faulted_pc, List.length]; omega) hb ht)
    · have e2 := State.fetched_pc_toNat a.toWord h2
      exact .inl (WordsThenFault.intro _ _ _ [op, a.toWord] _ _ (by simp [hen]) (by simp only [State.faulted_pc, List.length]; omega) rfl nofun (by intro _; exact ⟨a, by simp [hz], hn, rfl⟩) nofun nofun nofun)
    · exact .inl (WordsThenFault.atFetch _ _ _ [op] (by simp [hen]) (by simp [hen]) (by simp [ht, -State.fetched_pc, e1]) hb ht)
  · exact .inl (WordsThenFault.atFetch _ _ _ [] (by simp [hen]) (by simp [hen]) (by simp [ht]) hb ht)

/-- `t` is `s` after an `in` that has taken its character and then raised InvalidAddress (R113, R129). -/
def InputThenFault (i : Instr) (s t : State) : Prop :=
  ∃ (a : Operand) (ch : Byte) (rest : List Byte) (ws : List Word) (info : Word), i = .inp a ∧ s.input = ch :: rest ∧ ws <+: encode i ∧ s.pc.toNat + ws.length ≤ t.pc.toNat ∧
    s.pc.toNat + ws.length ≤ 32768 ∧
    t = { (ws.foldl State.fetched s).faulted .invalidAddress info with input := rest } ∧ ((a = .invalid info ∧ ws = encode i) ∨ (32768 ≤ info.toNat ∧ ws.length < (encode i).length ∧ info = t.pc))

/-- Everything an instruction can answer: a fault among its words or of its execution, its completion, an `in` that faults after
taking its character, or an `in` that waits. -/
theorem exec_next_cases (i : Instr) (s t : State) (h : exec i s = .next t) :
    WordsThenFault i s t ∨ Completes i s t ∨ InputThenFault i s t ∨ (∃ a, i = .inp a ∧ s.input = [] ∧ t = s ∧ s.pc.toNat < 32768) := by
  cases i
  case halt =>
    rw [exec_halt] at h
    rcases withFetch_next _ _ h with ⟨h1, h⟩ | ⟨hb, ht⟩
    · cases h; exact .inr (.inl ⟨by simp [encode, Instr.operands]; omega, State.fetched_pc_toNat _ h1, rfl⟩)
    · exact .inl (WordsThenFault.atFetch _ _ _ [] (by simp [encode, Instr.operands]) (by simp [encode, Instr.operands]) (by simp [ht]) hb ht)
  case noop =>
    rw [exec_noop] at h
    rcases withFetch_next _ _ h with ⟨h1, h⟩ | ⟨hb, ht⟩
    · cases h; exact .inr (.inl ⟨by simp [encode, Instr.operands]; omega, State.fetched_pc_toNat _ h1, rfl⟩)
    · exact .inl (WordsThenFault.atFetch _ _ _ [] (by simp [encode, Instr.operands]) (by simp [encode, Instr.operands]) (by simp [ht]) hb ht)
  case ret =>
    rw [exec_ret] at h
    rcases withFetch_next _ _ h with ⟨h1, h⟩ | ⟨hb, ht⟩
    · refine .inr (.inl ⟨by simp [encode, Instr.operands]; omega, State.fetched_pc_toNat _ h1, ?_⟩)
      split at h
      case h_1 v u hp =>
        cases h
        obtain ⟨rest, h2, rfl⟩ := (State.popped?_eq_some _ _ _).1 hp
        exact .inl ⟨v, rest, h2, rfl⟩
      case h_2 hp => cases h; exact .inr ⟨(State.popped?_eq_none (s.fetched 18)).1 hp, rfl⟩
    · exact .inl (WordsThenFault.atFetch _ _ _ [] (by simp [encode, Instr.operands]) (by simp [encode, Instr.operands]) (by simp [ht]) hb ht)
  case push a =>
    rcases operands_v_next (.push a) 2 a (fun _ va s => .next (s.push va)) rfl rfl h with h | ⟨h1, h2, v, hv, h⟩
    · exact .inl h
    · cases h; exact .inr (.inl ⟨h1, h2, v, hv, rfl⟩)
  case jmp a =>
    rcases operands_v_next (.jmp a) 6 a (fun _ va s => .next (s.jump va)) rfl rfl h with h | ⟨h1, h2, v, hv, h⟩
    · exact .inl h
    · cases h; exact .inr (.inl ⟨h1, h2, v, hv, rfl⟩)
  case out a =>
    rcases operands_v_next (.out a) 19 a (fun _ va s => .next (s.emit va)) rfl rfl h with h | ⟨h1, h2, v, hv, h⟩
    · exact .inl h
    · cases h; exact .inr (.inl ⟨h1, h2, v, hv, rfl⟩)
  case call a =>
    rcases operands_v_next (.call a) 17 a (fun s va s' => .next ((s'.push (s.pc+1)).jump va)) rfl rfl h with h | ⟨h1, h2, v, hv, h⟩
    · exact .inl h
    · cases h; exact .inr (.inl ⟨h1, h2, v, hv, by simp [BitVec.add_assoc]⟩)
  case pop a =>
    rcases operands_t_next (.pop a) 3 a (fun r s => match s.popped? with | some (v, s) => .next (s.writeReg r v) | none => .next (s.endRun .haltedUnderflow)) rfl rfl h with h | ⟨h1, h2, r, hr, h⟩
    · exact .inl h
    · refine .inr (.inl ⟨h1, h2, r, hr, ?_⟩)
      split at h
      case h_1 v u hp =>
        cases h
        obtain ⟨rest, h2, rfl⟩ := (State.popped?_eq_some _ _ _).1 hp
        exact .inl ⟨v, rest, by simpa [State.foldl_fetched] using h2, rfl⟩
      case h_2 hp => cases h; exact .inr ⟨by simpa [State.foldl_fetched] using (State.popped?_eq_none _).1 hp, rfl⟩
  case jt a b =>
    rcases operands_vv_next (.jt a b) 7 a b (fun va vb s => .next (if isNonzero va then s.jump vb else s)) rfl rfl h with h | ⟨h1, h2, va, vb, ha, hb, h⟩
    · exact .inl h
    · cases h; refine .inr (.inl ⟨h1, h2, va, vb, ha, hb, ?_⟩); by_cases hc : isNonzero va <;> simp [hc]
  case jf a b =>
    rcases operands_vv_next (.jf a b) 8 a b (fun va vb s => .next (if isNonzero va then s else s.jump vb)) rfl rfl h with h | ⟨h1, h2, va, vb, ha, hb, h⟩
    · exact .inl h
    · cases h; refine .inr (.inl ⟨h1, h2, va, vb, ha, hb, ?_⟩); by_cases hc : isNonzero va <;> simp [hc]
  case wmem a b =>
    rcases operands_vv_next (.wmem a b) 16 a b (fun va vb s => memWrite va vb s) rfl rfl h with h | ⟨h1, h2, va, vb, ha, hb, h⟩
    · exact .inl h
    · rcases memWrite_next _ _ h with ⟨h3, rfl⟩ | ⟨h3, rfl⟩
      · exact .inr (.inl ⟨h1, h2, va, vb, ha, hb, h3, rfl⟩)
      · exact .inl (WordsThenFault.intro _ _ _ (encode (.wmem a b)) _ _ (List.prefix_refl _) (by simp only [State.faulted_pc, h2]; simp [encode, Instr.operands]) rfl nofun nofun (fun _ => ⟨h3, rfl, ha⟩) nofun nofun)
  case set a b =>
    rcases operands_tv_next (.set a b) 1 a b (fun r vb s => .next (s.writeReg r vb)) rfl rfl h with h | ⟨h1, h2, r, vb, ha, hb, h⟩
    · exact .inl h
    · cases h; exact .inr (.inl ⟨h1, h2, r, vb, ha, hb, rfl⟩)
  case not a b =>
    rcases operands_tv_next (.not a b) 14 a b (fun r vb s => .next (s.writeReg r (aluNot vb))) rfl rfl h with h | ⟨h1, h2, r, vb, ha, hb, h⟩
    · exact .inl h
    · cases h; exact .inr (.inl ⟨h1, h2, r, vb, ha, hb, rfl⟩)
  case rmem a b =>
    rcases operands_tv_next (.rmem a b) 15 a b (fun r vb s => memRead vb s fun v => .next (s.writeReg r v)) rfl rfl h with h | ⟨h1, h2, r, vb, ha, hb, h⟩
    · exact .inl h
    · rcases memRead_next _ _ h with ⟨h3, h⟩ | ⟨h3, rfl⟩
      · cases h; exact .inr (.inl ⟨h1, h2, r, vb, ha, hb, h3, by simp [State.foldl_fetched]⟩)
      · exact .inl (WordsThenFault.intro _ _ _ (encode (.rmem a b)) _ _ (List.prefix_refl _) (by simp only [State.faulted_pc, h2]; simp [encode, Instr.operands]) rfl nofun nofun (fun _ => ⟨h3, rfl, hb⟩) nofun nofun)
  case inp a =>
    rw [exec_inp] at h
    rcases withFetch_next _ _ h with ⟨h1, h⟩ | ⟨hb, ht⟩
    · have e1 := State.fetched_pc_toNat 20 h1
      split at h
      case h_1 hn => cases h; exact .inr (.inr (.inr ⟨a, rfl, (State.takeChar?_eq_none (s.fetched 20)).1 hn, rfl, h1⟩))
      case h_2 v u hp =>
        obtain ⟨ch, rest, h2, rfl, rfl⟩ := (State.takeChar?_eq_some _ _ _).1 hp
        rcases withFetch_next _ _ h with ⟨h3, h⟩ | ⟨hb, ht⟩
        · have e3 := State.fetched_pc_toNat a.toWord (s := s.fetched 20) h3
          rcases writeDestination_next _ _ h with ⟨r, rfl, rfl⟩ | ⟨v, rfl, rfl⟩ | ⟨w, rfl, rfl⟩
          · exact .inr (.inl ⟨by simp only [encode, Instr.operands, List.length, List.map]; replace h3 : (s.fetched 20).pc.toNat < 32768 := h3; omega, by (show ((s.fetched 20).fetched _).pc.toNat = _); simp only [encode, Instr.operands, List.length, List.map]; omega, ch, rest, h2, .inl ⟨r, rfl, rfl⟩⟩)
          · exact .inr (.inl ⟨by simp only [encode, Instr.operands, List.length, List.map]; replace h3 : (s.fetched 20).pc.toNat < 32768 := h3; omega, by (show ((s.fetched 20).fetched _).pc.toNat = _); simp only [encode, Instr.operands, List.length, List.map]; omega, ch, rest, h2, .inr ⟨v, rfl, rfl⟩⟩)
          · exact .inr (.inr (.inl ⟨.invalid w, ch, rest, [20, (Operand.invalid w).toWord], w, rfl, h2, List.prefix_refl _, by (show _ ≤ ((s.fetched 20).fetched (Operand.invalid w).toWord).pc.toNat); simp only [List.length]; omega, by (show _ + 2 ≤ _); replace h3 : (s.fetched 20).pc.toNat < 32768 := h3; omega, rfl, .inl ⟨rfl, rfl⟩⟩))
        · exact .inr (.inr (.inl ⟨a, ch, rest, [20], (s.fetched 20).pc, rfl, h2, by simp [encode, Instr.operands, Instr.opcode], by rw [ht]; (show _ ≤ (s.fetched 20).pc.toNat); simp only [List.length]; omega, by (show _ + 1 ≤ _); omega, ht, .inr ⟨hb, by simp [encode, Instr.operands], by rw [ht]; rfl⟩⟩))
    · exact .inl (WordsThenFault.atFetch _ _ _ [] (by simp [encode, Instr.operands]) (by simp [encode, Instr.operands]) (by simp [ht]) hb ht)
  case mod a b c =>
    rcases operands_tvv_next (.mod a b c) 11 a b c (fun r vb vc s => if vc = 0 then raise .moduloByZero vb s else .next (s.writeReg r (aluMod vb vc))) rfl rfl h with h | ⟨h1, h2, r, vb, vc, ha, hb, hc, h⟩
    · exact .inl h
    · split at h
      case isTrue hz => cases h; exact .inl (WordsThenFault.intro _ _ _ (encode (.mod a b c)) _ _ (List.prefix_refl _) (by simp only [State.faulted_pc, h2]; simp [encode, Instr.operands]) rfl nofun nofun nofun (fun _ => ⟨a, b, c, rfl, hz ▸ hc, hb⟩) nofun)
      case isFalse hz => cases h; exact .inr (.inl ⟨h1, h2, r, vb, vc, ha, hb, hc, hz, rfl⟩)
  case eq a b c =>
    rcases operands_tvv_next (.eq a b c) 4 a b c (fun r vb vc s => .next (s.writeReg r (condEq vb vc))) rfl rfl h with h | ⟨h1, h2, r, vb, vc, ha, hb, hc, h⟩
    · exact .inl h
    · cases h; exact .inr (.inl ⟨h1, h2, r, vb, vc, ha, hb, hc, rfl⟩)
  case gt a b c =>
    rcases operands_tvv_next (.gt a b c) 5 a b c (fun r vb vc s => .next (s.writeReg r (condGt vb vc))) rfl rfl h with h | ⟨h1, h2, r, vb, vc, ha, hb, hc, h⟩
    · exact .inl h
    · cases h; exact .inr (.inl ⟨h1, h2, r, vb, vc, ha, hb, hc, rfl⟩)
  case add a b c =>
    rcases operands_tvv_next (.add a b c) 9 a b c (fun r vb vc s => .next (s.writeReg r (aluAdd vb vc))) rfl rfl h with h | ⟨h1, h2, r, vb, vc, ha, hb, hc, h⟩
    · exact .inl h
    · cases h; exact .inr (.inl ⟨h1, h2, r, vb, vc, ha, hb, hc, rfl⟩)
  case mult a b c =>
    rcases operands_tvv_next (.mult a b c) 10 a b c (fun r vb vc s => .next (s.writeReg r (aluMult vb vc))) rfl rfl h with h | ⟨h1, h2, r, vb, vc, ha, hb, hc, h⟩
    · exact .inl h
    · cases h; exact .inr (.inl ⟨h1, h2, r, vb, vc, ha, hb, hc, rfl⟩)
  case and a b c =>
    rcases operands_tvv_next (.and a b c) 12 a b c (fun r vb vc s => .next (s.writeReg r (aluAnd vb vc))) rfl rfl h with h | ⟨h1, h2, r, vb, vc, ha, hb, hc, h⟩
    · exact .inl h
    · cases h; exact .inr (.inl ⟨h1, h2, r, vb, vc, ha, hb, hc, rfl⟩)
  case or a b c =>
    rcases operands_tvv_next (.or a b c) 13 a b c (fun r vb vc s => .next (s.writeReg r (aluOr vb vc))) rfl rfl h with h | ⟨h1, h2, r, vb, vc, ha, hb, hc, h⟩
    · exact .inl h
    · cases h; exact .inr (.inl ⟨h1, h2, r, vb, vc, ha, hb, hc, rfl⟩)

end Sys2Proof.Machine
end

