-- ==== Sys2Proof/Laws/PerInstr.lean ====
section
/-! SUPPORT. The family Format: an instruction's words are as many as its opcode's format says (R47), its operand positions have kinds (R50), and it is well formed when each operand is. -/

namespace Sys2Proof.Laws.Format

/-- About the instruction as syntax: its length is the one its opcode fixes, from 1 to 4 words, with one kind per operand. -/
def Statement (i : Instr) : Prop :=
  formatWords i.opcode = some (encode i).length ∧ (encode i).length ≤ 4 ∧ i.kinds.length = i.operands.length

theorem halt : Statement .halt := by simp [Statement, formatWords, encode, Instr.opcode, Instr.operands, Instr.kinds]
theorem set (a b : Operand) : Statement (.set a b) := by simp [Statement, formatWords, encode, Instr.opcode, Instr.operands, Instr.kinds]
theorem push (a : Operand) : Statement (.push a) := by simp [Statement, formatWords, encode, Instr.opcode, Instr.operands, Instr.kinds]
theorem pop (a : Operand) : Statement (.pop a) := by simp [Statement, formatWords, encode, Instr.opcode, Instr.operands, Instr.kinds]
theorem eq (a b c : Operand) : Statement (.eq a b c) := by simp [Statement, formatWords, encode, Instr.opcode, Instr.operands, Instr.kinds]
theorem gt (a b c : Operand) : Statement (.gt a b c) := by simp [Statement, formatWords, encode, Instr.opcode, Instr.operands, Instr.kinds]
theorem jmp (a : Operand) : Statement (.jmp a) := by simp [Statement, formatWords, encode, Instr.opcode, Instr.operands, Instr.kinds]
theorem jt (a b : Operand) : Statement (.jt a b) := by simp [Statement, formatWords, encode, Instr.opcode, Instr.operands, Instr.kinds]
theorem jf (a b : Operand) : Statement (.jf a b) := by simp [Statement, formatWords, encode, Instr.opcode, Instr.operands, Instr.kinds]
theorem add (a b c : Operand) : Statement (.add a b c) := by simp [Statement, formatWords, encode, Instr.opcode, Instr.operands, Instr.kinds]
theorem mult (a b c : Operand) : Statement (.mult a b c) := by simp [Statement, formatWords, encode, Instr.opcode, Instr.operands, Instr.kinds]
theorem mod (a b c : Operand) : Statement (.mod a b c) := by simp [Statement, formatWords, encode, Instr.opcode, Instr.operands, Instr.kinds]
theorem and (a b c : Operand) : Statement (.and a b c) := by simp [Statement, formatWords, encode, Instr.opcode, Instr.operands, Instr.kinds]
theorem or (a b c : Operand) : Statement (.or a b c) := by simp [Statement, formatWords, encode, Instr.opcode, Instr.operands, Instr.kinds]
theorem not (a b : Operand) : Statement (.not a b) := by simp [Statement, formatWords, encode, Instr.opcode, Instr.operands, Instr.kinds]
theorem rmem (a b : Operand) : Statement (.rmem a b) := by simp [Statement, formatWords, encode, Instr.opcode, Instr.operands, Instr.kinds]
theorem wmem (a b : Operand) : Statement (.wmem a b) := by simp [Statement, formatWords, encode, Instr.opcode, Instr.operands, Instr.kinds]
theorem call (a : Operand) : Statement (.call a) := by simp [Statement, formatWords, encode, Instr.opcode, Instr.operands, Instr.kinds]
theorem ret : Statement .ret := by simp [Statement, formatWords, encode, Instr.opcode, Instr.operands, Instr.kinds]
theorem out (a : Operand) : Statement (.out a) := by simp [Statement, formatWords, encode, Instr.opcode, Instr.operands, Instr.kinds]
theorem inp (a : Operand) : Statement (.inp a) := by simp [Statement, formatWords, encode, Instr.opcode, Instr.operands, Instr.kinds]
theorem noop : Statement .noop := by simp [Statement, formatWords, encode, Instr.opcode, Instr.operands, Instr.kinds]

end Sys2Proof.Laws.Format
end

