-- ==== Sys2Proof/Tests/Slice0.lean ====
section
/-! SUPPORT. The model's own tests: ill-formed terms refused, words written out from the spec decoded, one step of each instruction (expected results from 95_test_vectors.md), and for every statement with hypotheses a witness that they can be met. -/

namespace Sys2Proof.Machine

/-- The launch state of R143 with an image of `m`. -/
def launch (m : List Word) : State := { State.reset with mem := Memory.loadFrom [] 0 m, status := .running }

/-- A running state with pc at `p`, registers, stack and input of its own, and two loaded cells. -/
def sample (p : Word) : State :=
  { launch [40000, 21] with pc := p, x := #v[5, 7, 32768, 32767, 0, 1, 40000, 255], stack := [9, 8], input := [72, 105] }

/-- The next state, where there is one. -/
def after? : Result → Option State
  | .next t => some t
  | .fault _ => none
  | .refused _ => none

/-- What is looked at after a step: the status, pc and register r. -/
def look (r : RegId) (s : State) : Option (Status × Word × Word) :=
  (after? (step s)).map fun t => (t.status, t.pc, t.reg r)

/-- What is looked at after a step that ends the run: the status, pc and fault_value. -/
def lookEnd (s : State) : Option (Status × Word × Word) :=
  (after? (step s)).map fun t => (t.status, t.pc, t.faultValue)

/-- What is looked at after a step: pc, the stack and the output history. -/
def lookPorts (s : State) : Option (Word × List Word × List Word) :=
  (after? (step s)).map fun t => (t.pc, t.stack, t.output)

/-- What is looked at after a step: pc, a cell, and how many characters are left. -/
def lookCell (a : Nat) (s : State) : Option (Word × Word × Nat) :=
  (after? (step s)).map fun t => (t.pc, t.mem.readCell a, t.input.length)

/-! ## Well-formedness: a term that stands for no word is refused, in every operand position -/

theorem test_ill_formed_one_operand :
    Instr.wellFormed (.push (.invalid 5)) = false ∧
    Instr.wellFormed (.pop (.invalid 5)) = false ∧
    Instr.wellFormed (.jmp (.invalid 5)) = false ∧
    Instr.wellFormed (.call (.invalid 5)) = false ∧
    Instr.wellFormed (.out (.invalid 5)) = false ∧
    Instr.wellFormed (.inp (.invalid 5)) = false := by decide

theorem test_ill_formed_two_operands :
    Instr.wellFormed (.set (.invalid 5) (.literal 1)) = false ∧ Instr.wellFormed (.set (.register 0) (.invalid 5)) = false ∧
    Instr.wellFormed (.jt (.invalid 5) (.literal 1)) = false ∧ Instr.wellFormed (.jt (.register 0) (.invalid 5)) = false ∧
    Instr.wellFormed (.jf (.invalid 5) (.literal 1)) = false ∧ Instr.wellFormed (.jf (.register 0) (.invalid 5)) = false ∧
    Instr.wellFormed (.not (.invalid 5) (.literal 1)) = false ∧ Instr.wellFormed (.not (.register 0) (.invalid 5)) = false ∧
    Instr.wellFormed (.rmem (.invalid 5) (.literal 1)) = false ∧ Instr.wellFormed (.rmem (.register 0) (.invalid 5)) = false ∧
    Instr.wellFormed (.wmem (.invalid 5) (.literal 1)) = false ∧ Instr.wellFormed (.wmem (.register 0) (.invalid 5)) = false := by decide

theorem test_ill_formed_three_operands :
    Instr.wellFormed (.eq (.invalid 5) (.literal 1) (.literal 1)) = false ∧ Instr.wellFormed (.eq (.register 0) (.invalid 5) (.literal 1)) = false ∧ Instr.wellFormed (.eq (.register 0) (.literal 1) (.invalid 5)) = false ∧
    Instr.wellFormed (.gt (.invalid 5) (.literal 1) (.literal 1)) = false ∧ Instr.wellFormed (.gt (.register 0) (.invalid 5) (.literal 1)) = false ∧ Instr.wellFormed (.gt (.register 0) (.literal 1) (.invalid 5)) = false ∧
    Instr.wellFormed (.add (.invalid 5) (.literal 1) (.literal 1)) = false ∧ Instr.wellFormed (.add (.register 0) (.invalid 5) (.literal 1)) = false ∧ Instr.wellFormed (.add (.register 0) (.literal 1) (.invalid 5)) = false ∧
    Instr.wellFormed (.mult (.invalid 5) (.literal 1) (.literal 1)) = false ∧ Instr.wellFormed (.mult (.register 0) (.invalid 5) (.literal 1)) = false ∧ Instr.wellFormed (.mult (.register 0) (.literal 1) (.invalid 5)) = false ∧
    Instr.wellFormed (.mod (.invalid 5) (.literal 1) (.literal 1)) = false ∧ Instr.wellFormed (.mod (.register 0) (.invalid 5) (.literal 1)) = false ∧ Instr.wellFormed (.mod (.register 0) (.literal 1) (.invalid 5)) = false ∧
    Instr.wellFormed (.and (.invalid 5) (.literal 1) (.literal 1)) = false ∧ Instr.wellFormed (.and (.register 0) (.invalid 5) (.literal 1)) = false ∧ Instr.wellFormed (.and (.register 0) (.literal 1) (.invalid 5)) = false ∧
    Instr.wellFormed (.or (.invalid 5) (.literal 1) (.literal 1)) = false ∧ Instr.wellFormed (.or (.register 0) (.invalid 5) (.literal 1)) = false ∧ Instr.wellFormed (.or (.register 0) (.literal 1) (.invalid 5)) = false := by decide

theorem test_ill_formed_boundary :
    Operand.wellFormed (.invalid 0) = false ∧ Operand.wellFormed (.invalid 32767) = false ∧ Operand.wellFormed (.invalid 32768) = false ∧
    Operand.wellFormed (.invalid 32775) = false ∧ Operand.wellFormed (.invalid 32776) = true ∧ Operand.wellFormed (.invalid 65535) = true := by decide

/-- R49, R51: illegal operand words are syntax, and the static check tells them apart. -/
theorem test_illegal_operand_is_well_formed :
    Instr.wellFormed (.set (.literal 5) (.invalid 65535)) = true ∧ Instr.legal (.set (.literal 5) (.invalid 65535)) = false ∧
    Instr.legal (.wmem (.literal 100) (.literal 7)) = true ∧ Instr.legal (.inp (.literal 100)) = true ∧ Instr.legal (.pop (.literal 5)) = false := by decide

/-! ## Decoding: one row of the opcode map (R50) after the other, words written out from it -/

theorem test_decode_halt :
    decode [0] = .ok (.halt, []) := by decide

theorem test_decode_set :
    decode [1, 32769, 5] = .ok (.set (.register 1) (.literal 5), []) := by decide

theorem test_decode_push :
    decode [2, 100] = .ok (.push (.literal 100), []) := by decide

theorem test_decode_pop :
    decode [3, 32770] = .ok (.pop (.register 2), []) := by decide

theorem test_decode_eq :
    decode [4, 32768, 5, 32774] = .ok (.eq (.register 0) (.literal 5) (.register 6), []) := by decide

/-- 95_test_vectors.md section 4: a literal in a target position decodes. -/
theorem test_decode_gt :
    decode [5, 100, 1, 2] = .ok (.gt (.literal 100) (.literal 1) (.literal 2), []) := by decide

theorem test_decode_jmp :
    decode [6, 32767] = .ok (.jmp (.literal 32767), []) := by decide

theorem test_decode_jt :
    decode [7, 32768, 8] = .ok (.jt (.register 0) (.literal 8), []) := by decide

theorem test_decode_jf :
    decode [8, 0, 4] = .ok (.jf (.literal 0) (.literal 4), []) := by decide

theorem test_decode_add :
    decode [9, 32768, 60, 5] = .ok (.add (.register 0) (.literal 60) (.literal 5), []) := by decide

theorem test_decode_mult :
    decode [10, 32770, 32767, 2] = .ok (.mult (.register 2) (.literal 32767) (.literal 2), []) := by decide

theorem test_decode_mod :
    decode [11, 32769, 32768, 0] = .ok (.mod (.register 1) (.register 0) (.literal 0), []) := by decide

theorem test_decode_and :
    decode [12, 32768, 21845, 10922] = .ok (.and (.register 0) (.literal 21845) (.literal 10922), []) := by decide

theorem test_decode_or :
    decode [13, 32771, 32769, 32770] = .ok (.or (.register 3) (.register 1) (.register 2), []) := by decide

theorem test_decode_not :
    decode [14, 32771, 32767] = .ok (.not (.register 3) (.literal 32767), []) := by decide

theorem test_decode_rmem :
    decode [15, 32769, 10] = .ok (.rmem (.register 1) (.literal 10), []) := by decide

theorem test_decode_wmem :
    decode [16, 32768, 5] = .ok (.wmem (.register 0) (.literal 5), []) := by decide

theorem test_decode_call :
    decode [17, 32775] = .ok (.call (.register 7), []) := by decide

theorem test_decode_ret :
    decode [18] = .ok (.ret, []) := by decide

theorem test_decode_out :
    decode [19, 88] = .ok (.out (.literal 88), []) := by decide

theorem test_decode_inp :
    decode [20, 100] = .ok (.inp (.literal 100), []) := by decide

theorem test_decode_noop :
    decode [21] = .ok (.noop, []) := by decide

theorem test_decode_refusals :
    decode [22, 0, 0] = .error (.undefinedOpcode 22) ∧ decode [32768] = .error (.undefinedOpcode 32768) ∧
    decode [32789] = .error (.undefinedOpcode 32789) ∧ decode [65535] = .error (.undefinedOpcode 65535) ∧
    decode [9, 32768, 60] = .error .truncated ∧ decode [] = .error .truncated := by decide

/-- R34: low byte first. -/
theorem test_decode_bytes :
    decodeBytes [9, 0, 0, 128, 60, 0, 5, 0] = .ok (.add (.register 0) (.literal 60) (.literal 5), []) := by decide

theorem test_encode_words :
    encode (.add (.register 0) (.literal 60) (.literal 5)) = [9, 32768, 60, 5] ∧ encode (.set (.register 0) (.invalid 32776)) = [1, 32768, 32776] ∧
    encode (.inp (.register 7)) = [20, 32775] ∧ encode .ret = [18] := by decide

theorem test_table_word :
    decodeTableWord 16 9 = some (.add (.literal 0) (.literal 0) (.literal 0)) ∧ decodeTableWord 48 (1 + 32769 * 65536 + 5 * 4294967296) = some (.set (.register 1) (.literal 5)) ∧
    decodeTableWord 16 22 = none ∧ decodeTableWord 16 (9 + 65536) = some (.add (.literal 0) (.literal 0) (.literal 0)) := by decide

/-! ## One step of each instruction -/

/-- Scenario A. -/
theorem test_halt :
    lookEnd (launch [0]) = some (.halted, 1, 0) := by decide

/-- Section 2.4. -/
theorem test_noop :
    look 0 (launch [21, 0]) = some (.running, 1, 0) := by decide

/-- Section 2.1. -/
theorem test_set_register :
    look 2 ((launch [1, 32770, 32769]).writeReg 1 5) = some (.running, 3, 5) := by decide

/-- Section 2.1. -/
theorem test_set_literal_target :
    lookEnd (launch [1, 5, 7]) = some (.fatal .invalidRegisterAddress, 2, 5) ∧ lookEnd (launch [1, 32776, 7]) = some (.fatal .invalidRegisterAddress, 2, 32776) := by decide

/-- Section 2.3. -/
theorem test_push :
    lookPorts (((launch [2, 32768]).writeReg 0 9).push 4) = some (2, [9, 4], []) := by decide

/-- Section 2.3. -/
theorem test_push_invalid :
    lookEnd (launch [2, 32776]) = some (.fatal .invalidInstruction, 2, 32776) ∧ lookPorts (launch [2, 32776]) = some (2, [], []) := by decide

/-- Section 2.3, the LIFO law. -/
theorem test_pop :
    look 0 { launch [3, 32768] with stack := [3, 2, 1] } = some (.running, 2, 3) ∧ lookPorts { launch [3, 32768] with stack := [3, 2, 1] } = some (2, [2, 1], []) := by decide

/-- Scenario D; section 2.3: the target is checked before the stack. -/
theorem test_pop_empty :
    look 0 ((launch [3, 32768, 0]).writeReg 0 6) = some (.haltedUnderflow, 2, 6) ∧ lookEnd (launch [3, 5]) = some (.fatal .invalidRegisterAddress, 2, 5) := by decide

/-- Section 2.2. -/
theorem test_eq :
    look 0 (launch [4, 32768, 5, 5]) = some (.running, 4, 1) ∧ look 1 (launch [4, 32769, 5, 6]) = some (.running, 4, 0) := by decide

/-- R81: the comparison is on all 16 bits. -/
theorem test_eq_all_bits :
    look 1 ((launch [4, 32769, 32768, 0]).writeReg 0 32768) = some (.running, 4, 0) := by decide

/-- Section 2.2. -/
theorem test_gt :
    look 2 (launch [5, 32770, 6, 5]) = some (.running, 4, 1) ∧ look 3 (launch [5, 32771, 5, 5]) = some (.running, 4, 0) ∧ look 4 (launch [5, 32772, 0, 32767]) = some (.running, 4, 0) := by decide

/-- Section 2.1, sixth vector. -/
theorem test_gt_unsigned :
    look 5 ((launch [5, 32773, 32768, 32767]).writeReg 0 32770) = some (.running, 4, 1) := by decide

/-- Sections 2.2 and 2.1. -/
theorem test_add :
    look 1 (launch [9, 32769, 32767, 32767]) = some (.running, 4, 32766) ∧ look 1 ((launch [9, 32769, 32768, 1]).writeReg 0 32770) = some (.running, 4, 3) := by decide

/-- Section 2.2. -/
theorem test_add_faults :
    lookEnd (launch [9, 32768, 1, 65535]) = some (.fatal .invalidInstruction, 4, 65535) ∧ lookEnd (launch [9, 5, 65535, 65535]) = some (.fatal .invalidRegisterAddress, 2, 5) := by decide

/-- Section 2.2. -/
theorem test_mult :
    look 0 (launch [10, 32768, 12345, 678]) = some (.running, 4, 14070) ∧ look 2 (launch [10, 32770, 32767, 32767]) = some (.running, 4, 1) := by decide

/-- Section 2.2: sources are read before the target is written. -/
theorem test_mult_same_register :
    look 0 ((launch [10, 32768, 32768, 32768]).writeReg 0 14) = some (.running, 4, 196) := by decide

/-- Section 2.2. -/
theorem test_mod :
    look 4 (launch [11, 32772, 32767, 100]) = some (.running, 4, 67) ∧ look 5 (launch [11, 32773, 5, 7]) = some (.running, 4, 5) := by decide

/-- Section 2.2. -/
theorem test_mod_by_zero :
    lookEnd ((launch [11, 32769, 32768, 0]).writeReg 0 7) = some (.fatal .moduloByZero, 4, 7) ∧ look 1 ((launch [11, 32769, 32768, 0]).writeReg 0 7) = some (.fatal .moduloByZero, 4, 0) := by decide

/-- Section 2.2. -/
theorem test_and :
    look 0 (launch [12, 32768, 12345, 678]) = some (.running, 4, 32) := by decide

/-- Section 2.1, sixth vector. -/
theorem test_and_whole_word :
    look 2 ((launch [12, 32770, 32768, 32768]).writeReg 0 32770) = some (.running, 4, 32770) := by decide

/-- Section 2.2. -/
theorem test_or :
    look 0 (launch [13, 32768, 12345, 678]) = some (.running, 4, 12991) := by decide

/-- Section 2.1, sixth vector. -/
theorem test_or_whole_word :
    look 3 ((launch [13, 32771, 32768, 1]).writeReg 0 32770) = some (.running, 4, 32771) := by decide

/-- Section 2.2. -/
theorem test_not :
    look 5 (launch [14, 32773, 21845]) = some (.running, 3, 10922) ∧ look 7 (launch [14, 32775, 0]) = some (.running, 3, 32767) := by decide

/-- Section 2.1, sixth vector. -/
theorem test_not_clears_bit_15 :
    look 4 ((launch [14, 32772, 32768]).writeReg 0 32770) = some (.running, 3, 32765) := by decide

/-- Section 2.1. -/
theorem test_rmem :
    look 0 (launch [15, 32768, 0, 0]) = some (.running, 3, 15) ∧ look 0 (launch [15, 32768, 7, 0, 0, 0, 0, 40000]) = some (.running, 3, 40000) := by decide

/-- Section 2.1. -/
theorem test_rmem_bad_address :
    lookEnd ((launch [15, 32769, 32768]).writeReg 0 40000) = some (.fatal .invalidAddress, 3, 40000) := by decide

/-- P3; section 2.1. -/
theorem test_wmem :
    lookCell 4 (launch [16, 4, 66, 19, 65, 0]) = some (3, 66, 0) ∧ lookCell 101 ((launch [16, 32768, 32768]).writeReg 0 101) = some (3, 101, 0) := by decide

/-- Section 2.1. -/
theorem test_wmem_bad_address :
    lookEnd ((launch [16, 32768, 1]).writeReg 0 40000) = some (.fatal .invalidAddress, 3, 40000) := by decide

/-- Scenario C; section 2.3: any target is accepted. -/
theorem test_jmp :
    lookPorts (launch [6, 4, 19, 88, 0]) = some (4, [], []) ∧ lookEnd ((launch [6, 32768]).writeReg 0 40000) = some (.running, 40000, 0) := by decide

/-- Section 2.3, last vector, third step. -/
theorem test_jmp_then_fetch :
    lookEnd { launch [] with pc := 40000 } = some (.fatal .invalidAddress, 40000, 40000) := by decide

/-- Section 2.3. -/
theorem test_jt :
    lookPorts ((launch [7, 32768, 8]).writeReg 0 3) = some (8, [], []) ∧ lookPorts (launch [7, 32768, 8]) = some (3, [], []) := by decide

/-- Section 2.3. -/
theorem test_jt_untaken_target :
    lookEnd (launch [7, 0, 65535, 0]) = some (.fatal .invalidInstruction, 3, 65535) := by decide

/-- Section 2.3. -/
theorem test_jf :
    lookPorts (launch [8, 0, 4, 22, 0]) = some (4, [], []) ∧ lookPorts (launch [8, 1, 4, 0, 22]) = some (3, [], []) := by decide

/-- Section 1.3. -/
theorem test_call :
    lookPorts { (launch [1, 32768, 6, 17, 32768, 0, 18]).writeReg 0 6 with pc := 3 } = some (6, [5], []) := by decide

/-- Section 2.3: leak (2), and the operand past the last cell. -/
theorem test_call_at_the_top :
    lookPorts ((State.withWordsAt { launch [] with pc := 32766 } 32766 [17, 5])) = some (5, [32768], []) ∧
    lookEnd (State.withWordsAt { launch [] with pc := 32767 } 32767 [17]) = some (.fatal .invalidAddress, 32768, 32768) := by decide

/-- Section 2.3. -/
theorem test_ret :
    lookPorts { launch [18] with stack := [4, 7] } = some (4, [7], []) := by decide

/-- P5. -/
theorem test_ret_empty :
    lookEnd { launch [21, 18] with pc := 1 } = some (.haltedUnderflow, 2, 0) := by decide

/-- Section 2.4; Scenario B. -/
theorem test_out :
    lookPorts (launch [19, 32767]) = some (2, [], [32767]) ∧ lookPorts { (launch [19, 32768]).writeReg 0 65 with output := [7] } = some (2, [], [7, 65]) := by decide

/-- Section 2.4. -/
theorem test_in :
    look 7 { launch [20, 32775, 0] with input := [255] } = some (.running, 2, 255) ∧ lookCell 3 { launch [20, 3, 19, 0, 0] with input := [72] } = some (2, 72, 0) := by decide

/-- Section 2.4: the bad destination takes the character, and with none the step waits. -/
theorem test_in_stops :
    lookEnd { launch [20, 32776] with input := [88] } = some (.fatal .invalidAddress, 2, 32776) ∧ lookCell 0 { launch [20, 32776] with input := [88] } = some (2, 20, 0) ∧
    after? (step (launch [20, 32768])) = some (launch [20, 32768]) := by decide

/-- Fetch trace of Scenario B. -/
theorem test_trace :
    (after? (step (launch [9, 32768, 60, 5, 19, 32768, 0]))).map (fun t => t.trace) = some [(0, 9), (1, 32768), (2, 60), (3, 5)] := by decide

/-- Section 2.5. -/
theorem test_undefined_opcode :
    lookEnd (launch [22]) = some (.fatal .undefinedOpcode, 1, 22) ∧ lookEnd (launch [32789]) = some (.fatal .undefinedOpcode, 1, 32789) ∧ lookEnd (launch []) = some (.halted, 1, 0) := by decide

/-- Section 2.4: the character is taken before the destination fetch. -/
theorem test_in_at_the_top :
    lookEnd { State.withWordsAt { launch [] with pc := 32767 } 32767 [20] with input := [65] } = some (.fatal .invalidAddress, 32768, 32768) ∧
    lookCell 0 { State.withWordsAt { launch [] with pc := 32767 } 32767 [20] with input := [65] } = some (32768, 0, 0) := by decide

theorem test_fetch_word :
    look 1 (State.reset.withFetchWord 48 (1 + 32769 * 65536 + 5 * 4294967296)) = some (.running, 3, 5) ∧ look 0 (State.reset.withFetchWord 16 21) = some (.running, 1, 0) := by decide

/-- R142, log 3: Run, and then the halt that empty memory is. -/
theorem test_run_from_reset :
    (after? (step State.reset)).map (fun t => (t.status, t.pc)) = some (.running, 0) ∧ lookEnd State.reset.run = some (.halted, 1, 0) := by decide

/-! ## Witnesses: concrete states and operands that meet the hypotheses of each statement, clause by clause, at the boundaries -/

/-- The operand values the witnesses below rest on: a literal, and registers with a canonical value, 32768, 32767, 0, 40000. -/
theorem witness_operandValues :
    operandValue? (.literal 32767) (sample 0) = some 32767 ∧ operandValue? (.register 0) (sample 0) = some 5 ∧
    operandValue? (.register 2) (sample 0) = some 32768 ∧ operandValue? (.register 3) (sample 0) = some 32767 ∧
    operandValue? (.register 4) (sample 0) = some 0 ∧ operandValue? (.register 6) (sample 0) = some 40000 ∧
    operandValue? (.invalid 65535) (sample 0) = none := by decide

theorem witness_DecodeOfEncodeIsTheInstruction :
    Instr.WellFormed (.add (.register 7) (.literal 32767) (.invalid 32776)) ∧
    decode (encode (.add (.register 7) (.literal 32767) (.invalid 32776)) ++ [1, 2]) = .ok (.add (.register 7) (.literal 32767) (.invalid 32776), [1, 2]) := by decide

theorem witness_EncodeOfDecodeIsTheWords :
    decode [16, 32767, 32768, 5] = .ok (.wmem (.literal 32767) (.register 0), [5]) := by decide

theorem witness_OperandWordIsReadByItsRange :
    (0 : Word).toNat ≤ 32767 ∧
    (32767 : Word).toNat ≤ 32767 ∧
    32768 ≤ (32768 : Word).toNat ∧ (32768 : Word).toNat ≤ 32775 ∧
    32768 ≤ (32775 : Word).toNat ∧ (32775 : Word).toNat ≤ 32775 ∧
    32776 ≤ (32776 : Word).toNat ∧
    32776 ≤ (65535 : Word).toNat ∧
    (32767 : Word).getLsbD 15 = false ∧
    (32775 : Word).getLsbD 15 = true ∧ (32775 : Word).extractLsb' 3 12 = 0 ∧
    (32776 : Word).getLsbD 15 = true ∧ (32776 : Word).extractLsb' 3 12 ≠ 0 ∧
    classify 0 = .literal 0 ∧ classify 32767 = .literal 32767 ∧
    classify 32768 = .register 0 ∧ classify 32775 = .register 7 ∧
    classify 32776 = .invalid 32776 ∧ classify 65535 = .invalid 65535 := by decide

theorem witness_LengthIsFixedByTheOpcode :
    decode (14 :: [32768, 3, 9]) = .ok (.not (.register 0) (.literal 3), [9]) ∧
    3 ≤ [(1 : Word), 2, 3].length ∧ (21 : Word).toNat ≤ 21 ∧ decode (21 :: [1, 2, 3]) = .ok (.noop, [1, 2, 3]) ∧
    22 ≤ (22 : Word).toNat ∧ formatWords 22 = none ∧ formatWords 21 = some 1 := by decide

theorem witness_ResolveValueRule :
    (32767 : Word).toNat ≤ 32767 ∧
    (32768 : Word).toNat = 32768 + (0 : RegId).val ∧
    (32775 : Word).toNat = 32768 + (7 : RegId).val ∧
    32776 ≤ (32776 : Word).toNat ∧
    (after? (withValue (classify 32775) (sample 9) fun v s => .next (s.push v))).map (fun t => (t.pc, t.stack)) = some (10, [255, 9, 8]) := by decide

theorem witness_ResolveTargetRule :
    (32768 : Word).toNat = 32768 + (0 : RegId).val ∧
    (32775 : Word).toNat = 32768 + (7 : RegId).val ∧
    ((32767 : Word).toNat ≤ 32767 ∨ 32776 ≤ (32767 : Word).toNat) ∧
    ((32776 : Word).toNat ≤ 32767 ∨ 32776 ≤ (32776 : Word).toNat) ∧
    32776 ≤ (32776 : Word).toNat := by decide

theorem witness_FetchRawRule :
    (sample 0).pc.toNat ≤ 32767 ∧
    (sample 32767).pc.toNat ≤ 32767 ∧
    32768 ≤ (sample 32768).pc.toNat ∧
    32768 ≤ (sample 65535).pc.toNat := by decide

theorem witness_StackPrimitives :
    (sample 0).popped? = some (9, { sample 0 with stack := [8] }) ∧
    State.reset.popped? = none := by decide

theorem witness_PushPopAndCallReturnLaws :
    (sample 32766).pc.toNat + 2 ≤ 32768 ∧
    operandValue? (.register 0) (sample 32766) = some 5 ∧
    (after? (exec (.call (.register 0)) (sample 32766))).map (fun t => (t.pc, t.stack)) = some (5, [32768, 9, 8]) ∧
    (after? (exec .ret { sample 32767 with stack := [32768, 9, 8] })).map (fun t => (t.pc, t.stack)) = some (32768, [9, 8]) ∧
    (sample 32767).pc.toNat < 32768 := by decide

theorem witness_MemoryPrimitives :
    (0 : Word).toNat ≤ 32767 ∧
    (32767 : Word).toNat ≤ 32767 ∧
    32768 ≤ (32768 : Word).toNat ∧
    (sample 0).mem.wf = true ∧
    (sample 0).mem.readCell 0 = 40000 := by decide

theorem witness_FetchSeesTheStoredWord :
    (sample 32765).pc.toNat + 3 ≤ 32768 ∧
    operandValue? (.register 3) (sample 32765) = some 32767 ∧
    operandValue? (.register 6) (sample 32765) = some 40000 ∧
    (32767 : Word).toNat < 32768 ∧
    (after? (exec (.wmem (.register 3) (.register 6)) (sample 32765))).map (fun t => (t.pc, t.mem.readCell 32767)) = some (32768, 40000) ∧
    ({ sample 32765 with pc := 32767 } : State).pc = 32767 ∧
    ({ sample 32765 with pc := 32766 } : State).pc.toNat + 1 = (32767 : Word).toNat ∧
    ({ sample 32765 with pc := 32765 } : State).pc.toNat + 2 = (32767 : Word).toNat ∧
    ({ sample 32765 with pc := 32764 } : State).pc.toNat + 3 = (32767 : Word).toNat ∧
    (sample 32766).pc.toNat + 2 ≤ 32768 ∧
    (sample 32766).input = 72 :: [105] ∧
    (after? (exec (.inp (.literal 32767)) (sample 32766))).map (fun t => (t.pc, t.mem.readCell 32767)) = some (32768, 72) := by decide

theorem witness_SetCopiesItsValue :
    operandFault? (.set (.literal 5) (.invalid 65535)) (sample 0).pc = some ⟨.invalidRegisterAddress, 5, 2⟩ ∧
    operandFault? (.set (.register 0) (.invalid 32776)) (sample 32765).pc = some ⟨.invalidInstruction, 32776, 3⟩ ∧
    operandFault? (.set (.register 0) (.literal 5)) (sample 32766).pc = some ⟨.invalidAddress, 32768, 2⟩ ∧
    operandFault? (.set (.register 0) (.literal 5)) (sample 32768).pc = some ⟨.invalidAddress, 32768, 0⟩ ∧
    operandFault? (.set (.register 0) (.literal 5)) (sample 32765).pc = none ∧
    (sample 32765).pc.toNat + 3 ≤ 32768 ∧
    operandValue? (.register 6) (sample 32765) = some 40000 := by decide

theorem witness_RmemLoadsTheWholeCell :
    operandFault? (.rmem (.literal 5) (.invalid 65535)) (sample 0).pc = some ⟨.invalidRegisterAddress, 5, 2⟩ ∧
    operandFault? (.rmem (.register 0) (.invalid 32776)) (sample 32765).pc = some ⟨.invalidInstruction, 32776, 3⟩ ∧
    operandFault? (.rmem (.register 0) (.literal 5)) (sample 32766).pc = some ⟨.invalidAddress, 32768, 2⟩ ∧
    operandFault? (.rmem (.register 0) (.literal 5)) (sample 32768).pc = some ⟨.invalidAddress, 32768, 0⟩ ∧
    operandFault? (.rmem (.register 0) (.literal 5)) (sample 32765).pc = none ∧
    (sample 32765).pc.toNat + 3 ≤ 32768 ∧
    operandValue? (.register 3) (sample 32765) = some 32767 ∧ (32767 : Word).toNat ≤ 32767 ∧
    operandValue? (.register 2) (sample 32765) = some 32768 ∧ 32768 ≤ (32768 : Word).toNat := by decide

theorem witness_WmemStoresOneCell :
    operandFault? (.wmem (.invalid 65535) (.invalid 32776)) (sample 0).pc = some ⟨.invalidInstruction, 65535, 2⟩ ∧
    operandFault? (.wmem (.literal 1) (.invalid 32776)) (sample 32765).pc = some ⟨.invalidInstruction, 32776, 3⟩ ∧
    operandFault? (.wmem (.register 0) (.literal 5)) (sample 32767).pc = some ⟨.invalidAddress, 32768, 1⟩ ∧
    operandFault? (.wmem (.register 0) (.literal 5)) (sample 32765).pc = none ∧
    (sample 32765).pc.toNat + 3 ≤ 32768 ∧
    operandValue? (.register 3) (sample 32765) = some 32767 ∧ operandValue? (.register 6) (sample 32765) = some 40000 ∧ (32767 : Word).toNat ≤ 32767 ∧
    operandValue? (.register 2) (sample 32765) = some 32768 ∧ 32768 ≤ (32768 : Word).toNat := by decide

theorem witness_EqWritesOneOrZero :
    operandFault? (.eq (.literal 5) (.invalid 65535) (.invalid 65535)) (sample 0).pc = some ⟨.invalidRegisterAddress, 5, 2⟩ ∧
    operandFault? (.eq (.register 0) (.literal 1) (.invalid 32776)) (sample 32764).pc = some ⟨.invalidInstruction, 32776, 4⟩ ∧
    operandFault? (.eq (.register 0) (.literal 5) (.literal 5)) (sample 32765).pc = some ⟨.invalidAddress, 32768, 3⟩ ∧
    operandFault? (.eq (.register 0) (.literal 5) (.literal 5)) (sample 65535).pc = some ⟨.invalidAddress, 65535, 0⟩ ∧
    operandFault? (.eq (.register 0) (.literal 5) (.literal 5)) (sample 32764).pc = none ∧
    (sample 32764).pc.toNat + 4 ≤ 32768 ∧
    operandValue? (.register 6) (sample 32764) = some 40000 ∧ operandValue? (.literal 32767) (sample 32764) = some 32767 := by decide

theorem witness_GtComparesUnsigned :
    operandFault? (.gt (.literal 5) (.invalid 65535) (.invalid 65535)) (sample 0).pc = some ⟨.invalidRegisterAddress, 5, 2⟩ ∧
    operandFault? (.gt (.register 0) (.literal 1) (.invalid 32776)) (sample 32764).pc = some ⟨.invalidInstruction, 32776, 4⟩ ∧
    operandFault? (.gt (.register 0) (.literal 5) (.literal 5)) (sample 32765).pc = some ⟨.invalidAddress, 32768, 3⟩ ∧
    operandFault? (.gt (.register 0) (.literal 5) (.literal 5)) (sample 65535).pc = some ⟨.invalidAddress, 65535, 0⟩ ∧
    operandFault? (.gt (.register 0) (.literal 5) (.literal 5)) (sample 32764).pc = none ∧
    (sample 32764).pc.toNat + 4 ≤ 32768 ∧
    operandValue? (.register 6) (sample 32764) = some 40000 ∧ operandValue? (.literal 32767) (sample 32764) = some 32767 := by decide

theorem witness_AddIsModulo32768 :
    operandFault? (.add (.literal 5) (.invalid 65535) (.invalid 65535)) (sample 0).pc = some ⟨.invalidRegisterAddress, 5, 2⟩ ∧
    operandFault? (.add (.register 0) (.literal 1) (.invalid 32776)) (sample 32764).pc = some ⟨.invalidInstruction, 32776, 4⟩ ∧
    operandFault? (.add (.register 0) (.literal 5) (.literal 5)) (sample 32765).pc = some ⟨.invalidAddress, 32768, 3⟩ ∧
    operandFault? (.add (.register 0) (.literal 5) (.literal 5)) (sample 65535).pc = some ⟨.invalidAddress, 65535, 0⟩ ∧
    operandFault? (.add (.register 0) (.literal 5) (.literal 5)) (sample 32764).pc = none ∧
    (sample 32764).pc.toNat + 4 ≤ 32768 ∧
    operandValue? (.register 6) (sample 32764) = some 40000 ∧ operandValue? (.literal 32767) (sample 32764) = some 32767 := by decide

theorem witness_MultIsModulo32768 :
    operandFault? (.mult (.literal 5) (.invalid 65535) (.invalid 65535)) (sample 0).pc = some ⟨.invalidRegisterAddress, 5, 2⟩ ∧
    operandFault? (.mult (.register 0) (.literal 1) (.invalid 32776)) (sample 32764).pc = some ⟨.invalidInstruction, 32776, 4⟩ ∧
    operandFault? (.mult (.register 0) (.literal 5) (.literal 5)) (sample 32765).pc = some ⟨.invalidAddress, 32768, 3⟩ ∧
    operandFault? (.mult (.register 0) (.literal 5) (.literal 5)) (sample 65535).pc = some ⟨.invalidAddress, 65535, 0⟩ ∧
    operandFault? (.mult (.register 0) (.literal 5) (.literal 5)) (sample 32764).pc = none ∧
    (sample 32764).pc.toNat + 4 ≤ 32768 ∧
    operandValue? (.register 6) (sample 32764) = some 40000 ∧ operandValue? (.literal 32767) (sample 32764) = some 32767 := by decide

theorem witness_AndIsBitwise :
    operandFault? (.and (.literal 5) (.invalid 65535) (.invalid 65535)) (sample 0).pc = some ⟨.invalidRegisterAddress, 5, 2⟩ ∧
    operandFault? (.and (.register 0) (.literal 1) (.invalid 32776)) (sample 32764).pc = some ⟨.invalidInstruction, 32776, 4⟩ ∧
    operandFault? (.and (.register 0) (.literal 5) (.literal 5)) (sample 32765).pc = some ⟨.invalidAddress, 32768, 3⟩ ∧
    operandFault? (.and (.register 0) (.literal 5) (.literal 5)) (sample 65535).pc = some ⟨.invalidAddress, 65535, 0⟩ ∧
    operandFault? (.and (.register 0) (.literal 5) (.literal 5)) (sample 32764).pc = none ∧
    (sample 32764).pc.toNat + 4 ≤ 32768 ∧
    operandValue? (.register 6) (sample 32764) = some 40000 ∧ operandValue? (.literal 32767) (sample 32764) = some 32767 := by decide

theorem witness_OrIsBitwise :
    operandFault? (.or (.literal 5) (.invalid 65535) (.invalid 65535)) (sample 0).pc = some ⟨.invalidRegisterAddress, 5, 2⟩ ∧
    operandFault? (.or (.register 0) (.literal 1) (.invalid 32776)) (sample 32764).pc = some ⟨.invalidInstruction, 32776, 4⟩ ∧
    operandFault? (.or (.register 0) (.literal 5) (.literal 5)) (sample 32765).pc = some ⟨.invalidAddress, 32768, 3⟩ ∧
    operandFault? (.or (.register 0) (.literal 5) (.literal 5)) (sample 65535).pc = some ⟨.invalidAddress, 65535, 0⟩ ∧
    operandFault? (.or (.register 0) (.literal 5) (.literal 5)) (sample 32764).pc = none ∧
    (sample 32764).pc.toNat + 4 ≤ 32768 ∧
    operandValue? (.register 6) (sample 32764) = some 40000 ∧ operandValue? (.literal 32767) (sample 32764) = some 32767 := by decide

theorem witness_ModIsTheUnsignedRemainder :
    operandFault? (.mod (.literal 5) (.invalid 65535) (.invalid 65535)) (sample 0).pc = some ⟨.invalidRegisterAddress, 5, 2⟩ ∧
    operandFault? (.mod (.register 0) (.literal 1) (.invalid 32776)) (sample 32764).pc = some ⟨.invalidInstruction, 32776, 4⟩ ∧
    operandFault? (.mod (.register 0) (.literal 5) (.literal 5)) (sample 32765).pc = some ⟨.invalidAddress, 32768, 3⟩ ∧
    operandFault? (.mod (.register 0) (.literal 5) (.literal 5)) (sample 65535).pc = some ⟨.invalidAddress, 65535, 0⟩ ∧
    operandFault? (.mod (.register 0) (.literal 5) (.literal 5)) (sample 32764).pc = none ∧
    (sample 32764).pc.toNat + 4 ≤ 32768 ∧
    operandValue? (.register 6) (sample 32764) = some 40000 ∧ operandValue? (.register 5) (sample 32764) = some 1 ∧ (1 : Word).toNat ≠ 0 ∧
    operandValue? (.register 4) (sample 32764) = some 0 ∧ (0 : Word).toNat = 0 := by decide

theorem witness_NotIsThe15BitComplement :
    operandFault? (.not (.literal 5) (.invalid 65535)) (sample 0).pc = some ⟨.invalidRegisterAddress, 5, 2⟩ ∧
    operandFault? (.not (.register 0) (.invalid 32776)) (sample 32765).pc = some ⟨.invalidInstruction, 32776, 3⟩ ∧
    operandFault? (.not (.register 0) (.literal 5)) (sample 32766).pc = some ⟨.invalidAddress, 32768, 2⟩ ∧
    operandFault? (.not (.register 0) (.literal 5)) (sample 32768).pc = some ⟨.invalidAddress, 32768, 0⟩ ∧
    operandFault? (.not (.register 0) (.literal 5)) (sample 32765).pc = none ∧
    (sample 32765).pc.toNat + 3 ≤ 32768 ∧
    operandValue? (.register 6) (sample 32765) = some 40000 := by decide

theorem witness_AluResultsAreCanonical :
    (1 : Word) ≠ 0 ∧
    (32767 : Word).toNat ≤ 32767 ∧ (0 : Word).toNat ≤ 32767 ∧
    32768 ≤ (aluMod 32768 32769).toNat ∧ (32769 : Word) ≠ 0 ∧
    32768 ≤ (aluAnd 65535 32768).toNat ∧
    32768 ≤ (aluOr 0 32768).toNat := by decide

/-- The results are those of 95_test_vectors.md section 2.2. -/
theorem witness_AluLawsAndIdioms :
    (32767 : Word).toNat ≤ 32767 ∧ 1 ≤ (1 : Word).toNat ∧ (1 : Word).toNat ≤ 32767 ∧
    (0 : Word).toNat ≤ 32767 ∧ 1 ≤ (32767 : Word).toNat ∧ (32767 : Word).toNat ≤ 32767 ∧
    aluAdd 10 (BitVec.ofNat 16 (32768 - 3)) = 7 ∧
    aluAdd (aluNot 10) 1 = 32758 ∧
    aluAnd (aluNot (aluAnd 12 10)) (aluOr 12 10) = 6 := by decide

theorem witness_PushAddsItsValue :
    operandFault? (.push (.invalid 32776)) (sample 32766).pc = some ⟨.invalidInstruction, 32776, 2⟩ ∧
    operandFault? (.push (.register 0)) (sample 32767).pc = some ⟨.invalidAddress, 32768, 1⟩ ∧
    operandFault? (.push (.register 0)) (sample 32768).pc = some ⟨.invalidAddress, 32768, 0⟩ ∧
    operandFault? (.push (.register 0)) (sample 32766).pc = none ∧
    (sample 32766).pc.toNat + 2 ≤ 32768 ∧
    operandValue? (.register 6) (sample 32766) = some 40000 := by decide

theorem witness_PopTakesTheTopOrHaltsGracefully :
    operandFault? (.pop (.literal 5)) (sample 0).pc = some ⟨.invalidRegisterAddress, 5, 2⟩ ∧
    operandFault? (.pop (.invalid 32776)) (sample 32766).pc = some ⟨.invalidRegisterAddress, 32776, 2⟩ ∧
    operandFault? (.pop (.register 0)) (sample 32767).pc = some ⟨.invalidAddress, 32768, 1⟩ ∧
    (sample 32766).pc.toNat + 2 ≤ 32768 ∧
    (sample 32766).stack = 9 :: [8] ∧
    ({ sample 32766 with stack := [] } : State).stack = [] := by decide

theorem witness_JmpSetsPc :
    operandFault? (.jmp (.invalid 32776)) (sample 32766).pc = some ⟨.invalidInstruction, 32776, 2⟩ ∧
    operandFault? (.jmp (.register 0)) (sample 32767).pc = some ⟨.invalidAddress, 32768, 1⟩ ∧
    operandFault? (.jmp (.register 0)) (sample 32768).pc = some ⟨.invalidAddress, 32768, 0⟩ ∧
    operandFault? (.jmp (.register 0)) (sample 32766).pc = none ∧
    (sample 32766).pc.toNat + 2 ≤ 32768 ∧
    operandValue? (.register 6) (sample 32766) = some 40000 := by decide

theorem witness_JtJumpsOnNonzero :
    operandFault? (.jt (.invalid 65535) (.invalid 32776)) (sample 0).pc = some ⟨.invalidInstruction, 65535, 2⟩ ∧
    operandFault? (.jt (.literal 1) (.invalid 32776)) (sample 32765).pc = some ⟨.invalidInstruction, 32776, 3⟩ ∧
    operandFault? (.jt (.register 0) (.literal 5)) (sample 32767).pc = some ⟨.invalidAddress, 32768, 1⟩ ∧
    operandFault? (.jt (.register 0) (.literal 5)) (sample 32765).pc = none ∧
    (sample 32765).pc.toNat + 3 ≤ 32768 ∧
    operandValue? (.register 5) (sample 32765) = some 1 ∧ (1 : Word) ≠ 0 ∧
    operandValue? (.register 4) (sample 32765) = some 0 ∧ ¬ (0 : Word) ≠ 0 ∧
    operandValue? (.register 2) (sample 32765) = some 32768 := by decide

theorem witness_JfJumpsOnZero :
    operandFault? (.jf (.invalid 65535) (.invalid 32776)) (sample 0).pc = some ⟨.invalidInstruction, 65535, 2⟩ ∧
    operandFault? (.jf (.literal 1) (.invalid 32776)) (sample 32765).pc = some ⟨.invalidInstruction, 32776, 3⟩ ∧
    operandFault? (.jf (.register 0) (.literal 5)) (sample 32767).pc = some ⟨.invalidAddress, 32768, 1⟩ ∧
    operandFault? (.jf (.register 0) (.literal 5)) (sample 32765).pc = none ∧
    (sample 32765).pc.toNat + 3 ≤ 32768 ∧
    operandValue? (.register 4) (sample 32765) = some 0 ∧ (0 : Word) = 0 ∧
    operandValue? (.register 5) (sample 32765) = some 1 ∧ ¬ (1 : Word) = 0 ∧
    operandValue? (.register 2) (sample 32765) = some 32768 := by decide

theorem witness_CallPushesTheNextAddress :
    operandFault? (.call (.invalid 32776)) (sample 32766).pc = some ⟨.invalidInstruction, 32776, 2⟩ ∧
    operandFault? (.call (.register 0)) (sample 32767).pc = some ⟨.invalidAddress, 32768, 1⟩ ∧
    operandFault? (.call (.register 0)) (sample 32768).pc = some ⟨.invalidAddress, 32768, 0⟩ ∧
    operandFault? (.call (.register 0)) (sample 32766).pc = none ∧
    (sample 32766).pc.toNat + 2 ≤ 32768 ∧
    operandValue? (.register 6) (sample 32766) = some 40000 := by decide

theorem witness_RetPopsPcOrHaltsGracefully :
    operandFault? (.ret) (sample 32768).pc = some ⟨.invalidAddress, 32768, 0⟩ ∧
    (sample 32767).pc.toNat + 1 ≤ 32768 ∧
    (sample 32767).stack = 9 :: [8] ∧
    ({ sample 32767 with stack := [] } : State).stack = [] := by decide

theorem witness_HaltEndsTheRun :
    operandFault? (.halt) (sample 32768).pc = some ⟨.invalidAddress, 32768, 0⟩ ∧
    (sample 32767).pc.toNat + 1 ≤ 32768 := by decide

theorem witness_NoopOnlyAdvancesPc :
    operandFault? (.noop) (sample 65535).pc = some ⟨.invalidAddress, 65535, 0⟩ ∧
    (sample 32767).pc.toNat + 1 ≤ 32768 := by decide

theorem witness_OutEmitsTheWholeCode :
    operandFault? (.out (.invalid 32776)) (sample 32766).pc = some ⟨.invalidInstruction, 32776, 2⟩ ∧
    operandFault? (.out (.register 0)) (sample 32767).pc = some ⟨.invalidAddress, 32768, 1⟩ ∧
    operandFault? (.out (.register 0)) (sample 32768).pc = some ⟨.invalidAddress, 32768, 0⟩ ∧
    operandFault? (.out (.register 0)) (sample 32766).pc = none ∧
    (sample 32766).pc.toNat + 2 ≤ 32768 ∧
    operandValue? (.register 6) (sample 32766) = some 40000 := by decide

theorem witness_InTakesOneCharacter :
    (sample 32766).input = 72 :: [105] ∧
    (sample 32766).pc.toNat + 2 ≤ 32768 ∧
    operandFault? (.inp (.invalid 32776)) (sample 32766).pc = some ⟨.invalidAddress, 32776, 2⟩ ∧
    operandFault? (.inp (.register 0)) (sample 32767).pc = some ⟨.invalidAddress, 32768, 1⟩ ∧
    (sample 32767).pc.toNat < 32768 ∧
    ({ sample 32767 with input := [] } : State).input = [] ∧
    32768 ≤ (sample 32768).pc.toNat := by decide

theorem witness_StepRunsTheDecodedInstruction :
    (sample 1).status = .running ∧ (sample 1).pc.toNat < 32768 ∧
    decode (sample 1).fetchWindow = .ok (.noop, [0, 0, 0]) ∧
    decode (sample 32767).fetchWindow = .ok (.halt, [0, 0, 0]) ∧
    (3 : Nat) < 4 ∧ (sample 32764).pc.toNat + 3 < 32768 := by decide

theorem witness_UndefinedOpcodeIsAbove21 :
    (sample 0).status = .running ∧ (sample 0).pc.toNat < 32768 ∧
    22 ≤ ((sample 0).mem.readCell (sample 0).pc.toNat).toNat ∧
    22 ≤ ((launch [22]).mem.readCell (launch [22]).pc.toNat).toNat ∧ (launch [22]).status = .running ∧
    ((sample 1).mem.readCell (sample 1).pc.toNat).toNat ≤ 21 ∧
    (after? (step (sample 1))).map (fun t => t.status) = some .running := by decide

theorem witness_FetchAboveTheTopIsInvalidAddress :
    (sample 32768).status = .running ∧ 32768 ≤ (sample 32768).pc.toNat ∧
    (sample 65535).status = .running ∧ 32768 ≤ (sample 65535).pc.toNat := by decide

theorem witness_TerminalStatusIsAbsorbing :
    ({ sample 0 with status := .halted } : State).status.terminal = true ∧
    ({ sample 0 with status := .haltedUnderflow } : State).status.terminal = true ∧
    ({ sample 0 with status := .fatal .moduloByZero } : State).status.terminal = true := by decide

theorem witness_RunStartsAReadyMachine :
    State.reset.status = .ready ∧
    (sample 0).status ≠ .ready := by decide

theorem witness_ARunEndsOnlyByATerminalCondition :
    (sample 1).status = .running ∧ (after? (step (sample 1))).isSome = true ∧
    lookEnd (sample 2) = some (.halted, 3, 0) ∧ nextTurn (sample 2) = .execute .halt ∧
    lookEnd (launch [18]) = some (.haltedUnderflow, 1, 0) ∧ (launch [18]).stack = [] ∧ nextTurn (launch [18]) = .execute .ret ∧
    lookEnd (launch [3, 32768]) = some (.haltedUnderflow, 2, 0) ∧ nextTurn (launch [3, 32768]) = .execute (.pop (.register 0)) := by decide

theorem witness_EveryFatalStatusHasItsCause :
    lookEnd (launch [65535]) = some (.fatal .undefinedOpcode, 1, 65535) ∧
    lookEnd (launch [8, 1, 65535]) = some (.fatal .invalidInstruction, 3, 65535) ∧
    lookEnd (launch [14, 32767, 1]) = some (.fatal .invalidRegisterAddress, 2, 32767) ∧
    lookEnd ((launch [15, 32769, 32768]).writeReg 0 32768) = some (.fatal .invalidAddress, 3, 32768) ∧
    lookEnd (launch [11, 32769, 32767, 0]) = some (.fatal .moduloByZero, 4, 32767) ∧
    lookEnd { launch [] with pc := 40000 } = some (.fatal .invalidAddress, 40000, 40000) ∧
    lookEnd (State.withWordsAt (sample 32767) 32767 [1]) = some (.fatal .invalidAddress, 32768, 32768) ∧ nextTurn (State.withWordsAt (sample 32767) 32767 [1]) = .execute (.set (.literal 0) (.literal 0)) ∧ 32768 < (sample 32767).pc.toNat + (encode (.set (.literal 0) (.literal 0))).length ∧
    lookEnd (launch [16, 32768, 1] |>.writeReg 0 65535) = some (.fatal .invalidAddress, 3, 65535) ∧
    lookEnd { launch [20, 32776] with input := [88] } = some (.fatal .invalidAddress, 2, 32776) ∧
    (launch [65535]).status = .running := by decide

theorem witness_FaultsArePrecise :
    (launch [11, 32769, 32767, 0]).status = .running ∧
    lookEnd (launch [11, 32769, 32767, 0]) = some (.fatal .moduloByZero, 4, 32767) ∧
    (Status.fatal .moduloByZero).isFatal = true ∧
    lookCell 0 { launch [20, 65535] with input := [1, 2] } = some (2, 20, 1) ∧
    (sample 65535).status = .running ∧ lookEnd (sample 65535) = some (.fatal .invalidAddress, 65535, 65535) ∧
    cellsFromPc (launch [11, 32769, 32767, 0]) 4 = [11, 32769, 32767, 0] := by decide

/-- The last: `jmp 0` at 0 changes only the trace. -/
theorem witness_OnlyInWaits :
    after? (step (launch [20, 5])) = some (launch [20, 5]) ∧ nextTurn (launch [20, 5]) = .execute (.inp (.literal 5)) ∧ (launch [20, 5]).input = [] ∧
    after? (step { launch [] with status := .halted }) = some { launch [] with status := .halted } ∧
    after? (step (launch [6, 0])) ≠ some (launch [6, 0]) := by decide

theorem witness_OnlyNamedRegistersAreReadOrWritten :
    (after? (exec (.add (.register 0) (.register 1) (.literal 2)) (sample 0))).map (fun t => (t.reg 0, t.reg 1, t.reg 2)) = some (9, 7, 32768) ∧
    destination? (.add (.register 0) (.register 1) (.literal 2)) ≠ some 1 ∧
    (2 : RegId) ∉ namedRegisters (.add (.register 0) (.register 1) (.literal 2)) ∧
    (0 : RegId) ∉ readRegisters (.add (.register 0) (.register 1) (.literal 2)) ∧ (7 : RegId) ∉ readRegisters (.inp (.register 7)) ∧
    destination? (.wmem (.register 0) (.register 1)) = none ∧
    destination? (.inp (.register 3)) = some 3 := by decide

theorem witness_OnlyTheStoredCellChanges :
    storeAddress? (.push (.literal 1)) (sample 0) = none ∧ (after? (exec (.push (.literal 1)) (sample 0))).isSome = true ∧
    storeAddress? (.wmem (.register 3) (.literal 6)) (sample 0) = some 32767 ∧
    (after? (exec (.wmem (.register 3) (.literal 6)) (sample 0))).map (fun t => (t.mem.readCell 32766, t.mem.readCell 32767)) = some (0, 6) ∧
    storeAddress? (.inp (.literal 0)) (sample 9) = some 0 ∧
    (after? (exec (.inp (.literal 0)) (sample 9))).map (fun t => (t.mem.readCell 0, t.mem.readCell 1)) = some (72, 21) := by decide

theorem witness_StackAndPortFrame :
    (after? (exec (.call (.literal 3)) (sample 9))).map (fun t => (t.stack, t.output, t.input)) = some ([11, 9, 8], [], [72, 105]) ∧
    (after? (exec (.pop (.register 3)) (sample 9))).map (fun t => (t.stack, t.output, t.input)) = some ([8], [], [72, 105]) ∧
    (after? (exec (.out (.register 6)) (sample 9))).map (fun t => (t.stack, t.output, t.input)) = some ([9, 8], [40000], [72, 105]) ∧
    (after? (exec (.inp (.register 6)) (sample 9))).map (fun t => (t.stack, t.output, t.input)) = some ([9, 8], [], [105]) := by decide

theorem witness_OnlyTransfersWritePc :
    (sample 32765).status = .running ∧
    (after? (exec (.rmem (.register 0) (.literal 0)) (sample 32765))).map (fun t => (t.pc, t.status.isFatal)) = some (32768, false) ∧
    (after? (exec (.jt (.register 0) (.register 6)) (sample 32765))).map (fun t => (t.pc, t.status.isFatal)) = some (40000, false) ∧
    (after? (exec .ret (sample 32765))).map (fun t => (t.pc, t.status.isFatal)) = some (9, false) ∧
    (after? (exec (.inp (.register 0)) (sample 32766))).map (fun t => (t.pc, t.status.isFatal)) = some (32768, false) ∧ (sample 32766).input ≠ [] := by decide

theorem witness_TraceIsObservational :
    (sample 32766).status = .running ∧
    (after? (exec (.push (.register 6)) (sample 32766))).map (fun t => (t.trace, t.status.isFatal)) = some ([(32766, 2), (32767, 32774)], false) ∧
    (after? (exec (.inp (.register 0)) (sample 32766))).map (fun t => (t.trace, t.status.isFatal)) = some ([(32766, 20), (32767, 32768)], false) ∧ (sample 32766).input ≠ [] := by decide

/-- The second: a store of 0 removes an entry. -/
theorem witness_StepKeepsTheMemoryCanonical :
    (sample 1).mem.wf = true ∧ (after? (step (sample 1))).isSome = true ∧
    (launch [16, 0, 0]).mem.wf = true ∧ lookCell 0 (launch [16, 0, 0]) = some (3, 0, 0) := by decide

theorem witness_DeliveredCharactersAreTakenInOrder :
    ({ sample 32766 with input := [] } : State).input = [] ∧ ({ sample 32766 with input := [] } : State).pc.toNat + 2 ≤ 32768 ∧
    (sample 0).input = 72 :: [105] ∧
    ((sample 0).deliver 33).input = [72, 105, 33] ∧
    nextTurn (launch [21]) = .execute .noop ∧ (launch [21]).input = [] ∧
    nextTurn { launch [20, 5] with input := [7] } = .execute (.inp (.literal 5)) ∧ ({ launch [20, 5] with input := [7] } : State).input ≠ [] ∧
    lookCell 5 ({ launch [20, 5] with input := [7] }.deliver 8) = some (2, 7, 1) := by decide

/-- A clean state in which neither leak happens. -/
theorem witness_StepKeepsAStateClean_clean :
    State.Clean 3 (launch [15, 32768, 0]) ∧ (launch [15, 32768, 0]).pc.toNat ≤ 32768 ∧
    (∀ i, nextTurn (launch [15, 32768, 0]) = .execute i → ¬ Leaks i (launch [15, 32768, 0])) ∧
    look 0 (launch [15, 32768, 0]) = some (.running, 3, 15) := by
  have hn : nextTurn (launch [15, 32768, 0]) = .execute (.rmem (.register 0) (.literal 0)) := by decide
  refine ⟨⟨by decide, fun _ h => absurd h List.not_mem_nil, fun a h _ => ?_⟩, by decide, fun i hi => ?_, by decide⟩
  · show ((Memory.loadFrom [] 0 [15, 32768, 0]).readCell a).toNat < 32768
    rw [Memory.readCell_loadFrom]
    rw [if_pos (Nat.zero_le a), List.getElem?_eq_none (by simpa using h)]
    simp
  · rw [hn] at hi
    cases hi
    rintro ⟨v, hv, _, h⟩
    cases hv
    revert h
    decide

/-- Each leak, from a state that is clean. -/
theorem witness_StepKeepsAStateClean_leaks :
    (Leaks (.rmem (.register 1) (.literal 0)) (sample 32765) ∧ (sample 32765).pc.toNat + 3 ≤ 32768) ∧
    (Leaks (.call (.literal 5)) (sample 32766) ∧ operandValue? (.literal 5) (sample 32766) = some 5) :=
  ⟨⟨⟨0, by decide⟩, by decide⟩, rfl, by decide⟩

/-- Images of length 0, 1, 32768 and 32769, and a machine that is running. -/
theorem witness_LoadCopiesTheImage :
    State.reset.status = .ready ∧ ([] : List Word).length ≤ 32768 ∧
    (after? (match State.reset.load [7] with | .ok s => .next s | .error _ => .next State.reset)).map
      (fun s => (s.pc, s.mem.readCell 0, s.mem.readCell 1)) = some (0, 7, 0) ∧
    (List.replicate 32768 (1 : Word)).length ≤ 32768 ∧ 32768 < (List.replicate 32769 (1 : Word)).length ∧
    (sample 0).status ≠ .ready := by
  refine ⟨by decide, by decide, by decide, ?_, ?_, by decide⟩
  · rw [List.length_replicate]
  · rw [List.length_replicate]; decide

end Sys2Proof.Machine
end

section
/-! State, frame and invariants (10_state.md): what an instruction can do to each part of the state, stated once over its effect. -/

namespace Sys2Proof.Machine

variable {i : Instr} {s t u : State} {n : Nat}

/-! ### What fetching words leaves unchanged -/

@[simp] theorem State.foldl_fetched_mem (ws : List Word) (s : State) : (ws.foldl State.fetched s).mem = s.mem := by
  simp [State.foldl_fetched]

@[simp] theorem State.foldl_fetched_x (ws : List Word) (s : State) : (ws.foldl State.fetched s).x = s.x := by
  simp [State.foldl_fetched]

@[simp] theorem State.foldl_fetched_stack (ws : List Word) (s : State) : (ws.foldl State.fetched s).stack = s.stack := by
  simp [State.foldl_fetched]

@[simp] theorem State.foldl_fetched_output (ws : List Word) (s : State) : (ws.foldl State.fetched s).output = s.output := by
  simp [State.foldl_fetched]

@[simp] theorem State.foldl_fetched_input (ws : List Word) (s : State) : (ws.foldl State.fetched s).input = s.input := by
  simp [State.foldl_fetched]

@[simp] theorem State.foldl_fetched_pc (ws : List Word) (s : State) :
    (ws.foldl State.fetched s).pc = s.pc + BitVec.ofNat 16 ws.length := by
  simp [State.foldl_fetched]

/-- Registers agree when the banks do. -/
theorem State.reg_congr (h : t.x = s.x) (r : RegId) : t.reg r = s.reg r := by
  simp only [State.reg, h]

/-! ### An instruction that stops short -/

/-- `t` is left by an `i` that did not complete: it raised a fatal condition, or is an `in` that waits. Nothing is written;
at most words were fetched and the character of `in` taken (R69, R128, R129). -/
structure StopsShort (i : Instr) (s t : State) : Prop where
  x : t.x = s.x
  mem : t.mem = s.mem
  stack : t.stack = s.stack
  output : t.output = s.output
  input : t.input = s.input ∨ ∃ a ch, i = .inp a ∧ s.input = ch :: t.input
  pc : t.pc = s.pc ∨ t.pc.toNat ≤ 32768
  reason : t.status.isFatal = true ∨ ∃ a, i = .inp a ∧ s.input = []

/-- Past words that all lie in memory, pc is at most at its top. -/
theorem pc_after_words_le (p : Word) (k : Nat) (h : p.toNat + k ≤ 32768) : (p + BitVec.ofNat 16 k).toNat ≤ 32768 := by
  simp only [BitVec.toNat_add, BitVec.toNat_ofNat]
  omega

theorem WordsThenFault.stopsShort (h : WordsThenFault i s t) : StopsShort i s t := by
  obtain ⟨ws, f, info, -, -, hws, rfl, -⟩ := h
  refine ⟨by simp, by simp, by simp, by simp, .inl (by simp), ?_, .inl rfl⟩
  rcases hws with rfl | hws
  · exact .inl rfl
  · exact .inr (by simpa using pc_after_words_le _ _ hws)

theorem InputThenFault.stopsShort (h : InputThenFault i s t) : StopsShort i s t := by
  obtain ⟨a, ch, rest, ws, info, hi, hin, -, -, hws, rfl, -⟩ := h
  exact ⟨by simp, by simp, by simp, by simp, .inr ⟨a, ch, hi, hin⟩,
    .inr (by simpa using pc_after_words_le _ _ hws), .inl rfl⟩

/-- An instruction completes or stops short. -/
theorem exec_completes_or_stopsShort (h : exec i s = .next t) : Completes i s t ∨ StopsShort i s t := by
  rcases exec_next_cases i s t h with h | h | h | ⟨a, hi, hin, rfl, -⟩
  · exact .inr h.stopsShort
  · exact .inl h
  · exact .inr h.stopsShort
  · exact .inr ⟨rfl, rfl, rfl, rfl, .inl rfl, .inl rfl, .inr ⟨a, hi, hin⟩⟩

/-! ### Canonical values (R7, R13) -/

theorem operandValue?_canonical {o : Operand} {v : Word} (hs : ∀ r, Word.Canonical (s.reg r))
    (h : operandValue? o s = some v) : v.Canonical := by
  cases o with
  | literal w =>
    cases h
    have := w.isLt
    simp only [Word.Canonical, BitVec.toNat_setWidth]
    omega
  | register r =>
    cases h
    exact hs r
  | invalid w => cases h

theorem boolWord_canonical (b : Bool) : (boolWord b).Canonical := by cases b <;> decide

theorem condEq_canonical (b c : Word) : (condEq b c).Canonical := boolWord_canonical _

theorem condGt_canonical (b c : Word) : (condGt b c).Canonical := boolWord_canonical _

/-- What is reduced modulo VALUE_MOD is canonical. -/
theorem ofNat_mod_valueMod_canonical (k : Nat) : Word.Canonical (BitVec.ofNat 16 (k % Config.valueMod)) := by
  simp only [Word.Canonical, BitVec.toNat_ofNat, Config.valueMod]
  omega

theorem aluAdd_canonical (b c : Word) : (aluAdd b c).Canonical := ofNat_mod_valueMod_canonical _

theorem aluMult_canonical (b c : Word) : (aluMult b c).Canonical := ofNat_mod_valueMod_canonical _

theorem aluMod_canonical {b : Word} (c : Word) (hb : b.Canonical) : (aluMod b c).Canonical := by
  have hle : b.toNat % c.toNat ≤ b.toNat := Nat.mod_le _ _
  simp only [Word.Canonical, aluMod, BitVec.toNat_ofNat] at hb ⊢
  omega

theorem aluAnd_canonical {b : Word} (c : Word) (hb : b.Canonical) : (aluAnd b c).Canonical := by
  simp only [Word.Canonical, aluAnd, BitVec.toNat_and] at hb ⊢
  exact lt_of_le_of_lt Nat.and_le_left hb

theorem aluOr_canonical {b c : Word} (hb : b.Canonical) (hc : c.Canonical) : (aluOr b c).Canonical := by
  simpa only [Word.Canonical, aluOr, BitVec.toNat_or] using Nat.or_lt_two_pow (n := 15) hb hc

theorem aluNot_canonical (b : Word) : (aluNot b).Canonical := by
  simp only [Word.Canonical, aluNot, BitVec.toNat_and]
  exact lt_of_le_of_lt Nat.and_le_right (by decide)

theorem char_canonical (ch : Byte) : Word.Canonical (ch.setWidth 16) := by
  have := ch.isLt
  simp only [Word.Canonical, BitVec.toNat_setWidth]
  omega

/-! ### The effect of a completed instruction -/

/-- The own effect of a completed `i` begun in `s`, on the state `u` that the fetch of its words has left: the 22 meanings
by what they do. -/
inductive Effect (i : Instr) (s u : State) : State → Prop where
  /-- `noop`, and a conditional jump that is not taken. -/
  | nothing : Effect i s u u
  /-- `halt`, and `pop` and `ret` on the empty stack. -/
  | ended (st : Status) : Effect i s u (u.endRun st)
  /-- `set`, `rmem` and the arithmetic and logic unit. From canonical registers only a leak writes a value above 32767. -/
  | wrote (r : RegId) (v : Word) (hd : destination? i = some r)
      (hv : (∀ q, Word.Canonical (s.reg q)) → ¬ Leaks i s → v.Canonical) : Effect i s u (u.writeReg r v)
  | stored (a b : Operand) (va vb : Word) (hi : i = .wmem a b) (ha : operandValue? a s = some va)
      (hb : operandValue? b s = some vb) : Effect i s u (u.writeMem va vb)
  | pushed (a : Operand) (v : Word) (hi : i = .push a) (hv : operandValue? a s = some v) : Effect i s u (u.push v)
  | popped (r : RegId) (v : Word) (rest : List Word) (hi : i = .pop (.register r)) (hs : s.stack = v :: rest) :
      Effect i s u ({ u with stack := rest }.writeReg r v)
  /-- `jmp`, and a conditional jump that is taken. -/
  | jumped (a : Operand) (v : Word) (hi : i = .jmp a ∨ ∃ c, i = .jt c a ∨ i = .jf c a) (hv : operandValue? a s = some v) :
      Effect i s u (u.jump v)
  | called (a : Operand) (v : Word) (hi : i = .call a) (hv : operandValue? a s = some v) :
      Effect i s u ((u.push (s.pc + 2)).jump v)
  | returned (v : Word) (rest : List Word) (hi : i = .ret) (hs : s.stack = v :: rest) :
      Effect i s u ({ u with stack := rest }.jump v)
  | emitted (a : Operand) (v : Word) (hi : i = .out a) (hv : operandValue? a s = some v) : Effect i s u (u.emit v)
  | inputToReg (r : RegId) (ch : Byte) (rest : List Byte) (hi : i = .inp (.register r)) (hs : s.input = ch :: rest) :
      Effect i s u ({ u with input := rest }.writeReg r (ch.setWidth 16))
  | inputToMem (a : BitVec 15) (ch : Byte) (rest : List Byte) (hi : i = .inp (.literal a)) (hs : s.input = ch :: rest) :
      Effect i s u ({ u with input := rest }.writeMem (a.setWidth 16) (ch.setWidth 16))

/-- A completed instruction has fetched its words, all inside memory, and then had its effect. -/
theorem Completes.effect (h : Completes i s t) :
    s.pc.toNat + (encode i).length ≤ 32768 ∧ Effect i s ((encode i).foldl State.fetched s) t := by
  obtain ⟨hlen, -, h⟩ := h
  refine ⟨hlen, ?_⟩
  cases i with
  | halt => exact h ▸ .ended _
  | noop => exact h ▸ .nothing
  | set a b =>
    obtain ⟨r, v, rfl, hb, rfl⟩ := h
    exact .wrote r v rfl fun hs _ => operandValue?_canonical hs hb
  | not a b =>
    obtain ⟨r, v, rfl, hb, rfl⟩ := h
    exact .wrote r _ rfl fun _ _ => aluNot_canonical v
  | rmem a b =>
    obtain ⟨r, v, rfl, hb, hv, rfl⟩ := h
    exact .wrote r _ rfl fun _ hl => Nat.not_le.1 fun hle => hl ⟨v, hb, hv, hle⟩
  | wmem a b =>
    obtain ⟨va, vb, ha, hb, hva, rfl⟩ := h
    exact .stored a b va vb rfl ha hb
  | eq a b c =>
    obtain ⟨r, vb, vc, rfl, hb, hc, rfl⟩ := h
    exact .wrote r _ rfl fun _ _ => condEq_canonical vb vc
  | gt a b c =>
    obtain ⟨r, vb, vc, rfl, hb, hc, rfl⟩ := h
    exact .wrote r _ rfl fun _ _ => condGt_canonical vb vc
  | add a b c =>
    obtain ⟨r, vb, vc, rfl, hb, hc, rfl⟩ := h
    exact .wrote r _ rfl fun _ _ => aluAdd_canonical vb vc
  | mult a b c =>
    obtain ⟨r, vb, vc, rfl, hb, hc, rfl⟩ := h
    exact .wrote r _ rfl fun _ _ => aluMult_canonical vb vc
  | mod a b c =>
    obtain ⟨r, vb, vc, rfl, hb, hc, hz, rfl⟩ := h
    exact .wrote r _ rfl fun hs _ => aluMod_canonical vc (operandValue?_canonical hs hb)
  | and a b c =>
    obtain ⟨r, vb, vc, rfl, hb, hc, rfl⟩ := h
    exact .wrote r _ rfl fun hs _ => aluAnd_canonical vc (operandValue?_canonical hs hb)
  | or a b c =>
    obtain ⟨r, vb, vc, rfl, hb, hc, rfl⟩ := h
    exact .wrote r _ rfl fun hs _ => aluOr_canonical (operandValue?_canonical hs hb) (operandValue?_canonical hs hc)
  | push a =>
    obtain ⟨v, ha, rfl⟩ := h
    exact .pushed a v rfl ha
  | pop a =>
    obtain ⟨r, rfl, ⟨v, rest, hs, rfl⟩ | ⟨hs, rfl⟩⟩ := h
    · exact .popped r v rest rfl hs
    · exact .ended _
  | jmp a =>
    obtain ⟨v, ha, rfl⟩ := h
    exact .jumped a v (.inl rfl) ha
  | jt a b =>
    obtain ⟨va, vb, ha, hb, rfl | rfl⟩ := h
    · exact .jumped b vb (.inr ⟨a, .inl rfl⟩) hb
    · exact .nothing
  | jf a b =>
    obtain ⟨va, vb, ha, hb, rfl | rfl⟩ := h
    · exact .jumped b vb (.inr ⟨a, .inr rfl⟩) hb
    · exact .nothing
  | call a =>
    obtain ⟨v, ha, rfl⟩ := h
    exact .called a v rfl ha
  | ret =>
    obtain ⟨v, rest, hs, rfl⟩ | ⟨hs, rfl⟩ := h
    · exact .returned v rest rfl hs
    · exact .ended _
  | out a =>
    obtain ⟨v, ha, rfl⟩ := h
    exact .emitted a v rfl ha
  | inp a =>
    obtain ⟨ch, rest, hs, ⟨r, rfl, rfl⟩ | ⟨v, rfl, rfl⟩⟩ := h
    · exact .inputToReg r ch rest rfl hs
    · exact .inputToMem v ch rest rfl hs

/-- Where an effect leaves pc: where the fetches left it, or at the value of a transfer (R15, R105). -/
theorem Effect.pc_cases (h : Effect i s u t) :
    t.pc = u.pc ∨
    (∃ a, (i = .jmp a ∨ i = .call a ∨ ∃ c, i = .jt c a ∨ i = .jf c a) ∧ operandValue? a s = some t.pc) ∨
    (i = .ret ∧ s.stack = t.pc :: t.stack) := by
  cases h with
  | jumped a v hi hv => exact .inr (.inl ⟨a, hi.imp_right .inr, hv⟩)
  | called a v hi hv => exact .inr (.inl ⟨a, .inr (.inl hi), hv⟩)
  | returned v rest hi hs => exact .inr (.inr ⟨hi, hs⟩)
  | _ => exact .inl rfl

/-- No effect writes a register other than the destination (R12). -/
theorem Effect.reg_of_ne_destination (h : Effect i s u t) {q : RegId} (hq : destination? i ≠ some q) :
    t.reg q = u.reg q := by
  cases h with
  | wrote r v hd _ => exact State.reg_writeReg_other _ r q v fun e => hq (e ▸ hd)
  | popped r v rest hi _ => exact State.reg_writeReg_other _ r q v fun e => hq (by rw [hi, e]; rfl)
  | inputToReg r ch rest hi _ => exact State.reg_writeReg_other _ r q _ fun e => hq (by rw [hi, e]; rfl)
  | _ => rfl

/-! ### Clean states (R13) -/

/-- Cleanness is about the registers, the stack and the memory only. -/
theorem State.Clean.congr (h : s.Clean n) (hx : t.x = s.x) (hs : t.stack = s.stack) (hm : t.mem = s.mem) : t.Clean n := by
  obtain ⟨hreg, hstack, hmem⟩ := h
  exact ⟨fun r => State.reg_congr hx r ▸ hreg r, hs ▸ hstack, hm ▸ hmem⟩

theorem State.Clean.regs (h : s.Clean n) : ∀ r, Word.Canonical (s.reg r) := h.1

theorem State.Clean.writeReg (h : s.Clean n) (r : RegId) {v : Word} (hv : v.Canonical) : (s.writeReg r v).Clean n := by
  obtain ⟨hreg, hstack, hmem⟩ := h
  refine ⟨fun q => ?_, hstack, hmem⟩
  rw [State.reg_writeReg]
  split
  · exact hv
  · exact hreg q

theorem State.Clean.withStack (h : s.Clean n) {l : List Word} (hl : ∀ v ∈ l, Word.Canonical v) :
    State.Clean n { s with stack := l } := by
  obtain ⟨hreg, -, hmem⟩ := h
  exact ⟨hreg, hl, hmem⟩

theorem State.Clean.push (h : s.Clean n) {v : Word} (hv : v.Canonical) : (s.push v).Clean n := by
  have ⟨_, hstack, _⟩ := h
  exact h.withStack (List.forall_mem_cons.2 ⟨hv, hstack⟩)

theorem State.Clean.writeMem (h : s.Clean n) (a : Word) {v : Word} (hv : v.Canonical) : (s.writeMem a v).Clean n := by
  obtain ⟨hreg, hstack, hmem⟩ := h
  refine ⟨hreg, hstack, fun b hn hb => ?_⟩
  rw [State.writeMem_mem, Memory.readCell_writeCell]
  split
  · exact hv
  · exact hmem b hn hb

theorem State.Clean.words (h : s.Clean n) (ws : List Word) : (ws.foldl State.fetched s).Clean n :=
  h.congr (by simp) (by simp) (by simp)

/-- On a clean stack both what a pop takes off and what it leaves are canonical. -/
theorem State.Clean.stack_cons (h : s.Clean n) {v : Word} {rest : List Word} (hs : s.stack = v :: rest) :
    v.Canonical ∧ ∀ w ∈ rest, Word.Canonical w := by
  obtain ⟨-, hstack, -⟩ := h
  rw [hs] at hstack
  exact List.forall_mem_cons.1 hstack

/-- The return address of a `call` inside memory is canonical, unless its opcode word is at 32766 (R13). -/
theorem returnAddress_canonical {p : Word} (hlen : p.toNat + 2 ≤ 32768) (hne : p ≠ 32766) : Word.Canonical (p + 2) := by
  have hne' : p.toNat ≠ 32766 := fun e => hne (BitVec.eq_of_toNat_eq e)
  simp only [Word.Canonical, BitVec.toNat_add, show (2 : Word).toNat = 2 from rfl]
  omega

/-- The effect of an instruction that is no leak keeps a clean state clean. -/
theorem Effect.clean (h : Effect i s u t) (hs : s.Clean n) (hu : u.Clean n) (hlen : s.pc.toNat + (encode i).length ≤ 32768)
    (hl : ¬ Leaks i s) : t.Clean n := by
  cases h with
  | nothing | ended | jumped | emitted => exact hu
  | wrote r v hd hv => exact hu.writeReg r (hv hs.regs hl)
  | stored a b va vb hi ha hb => exact hu.writeMem va (operandValue?_canonical hs.regs hb)
  | pushed a v hi hv => exact hu.push (operandValue?_canonical hs.regs hv)
  | popped r v rest hi hst =>
    obtain ⟨hv, hrest⟩ := hs.stack_cons hst
    exact (hu.withStack hrest).writeReg r hv
  | called a v hi hv =>
    subst hi
    exact hu.push (returnAddress_canonical hlen hl)
  | returned v rest hi hst =>
    obtain ⟨-, hrest⟩ := hs.stack_cons hst
    exact hu.withStack hrest
  | inputToReg r ch rest hi hin => exact State.Clean.writeReg hu r (char_canonical ch)
  | inputToMem a ch rest hi hin => exact State.Clean.writeMem hu _ (char_canonical ch)

/-- From a clean state an instruction leaves pc at most at the top of memory (R16): a transfer goes to a canonical value. -/
theorem Effect.pc_le (h : Effect i s u t) (hs : s.Clean n) (hu : u.pc.toNat ≤ 32768) : t.pc.toNat ≤ 32768 := by
  rcases h.pc_cases with hpc | ⟨a, -, hv⟩ | ⟨-, hst⟩
  · exact hpc ▸ hu
  · exact le_of_lt (operandValue?_canonical hs.regs hv)
  · obtain ⟨hv, -⟩ := hs.stack_cons hst
    exact le_of_lt hv

/-- An instruction that is no leak keeps a clean state clean and pc at most 32768. -/
theorem exec_keeps_clean (h : exec i s = .next t) (hs : s.Clean n) (hpc : s.pc.toNat ≤ 32768) (hl : ¬ Leaks i s) :
    t.Clean n ∧ t.pc.toNat ≤ 32768 := by
  rcases exec_completes_or_stopsShort h with hc | hstop
  · obtain ⟨hlen, he⟩ := hc.effect
    exact ⟨he.clean hs (hs.words _) hlen hl, he.pc_le hs (by simpa using pc_after_words_le _ _ hlen)⟩
  · refine ⟨hs.congr hstop.x hstop.stack hstop.mem, ?_⟩
    rcases hstop.pc with e | hle
    · exact e ▸ hpc
    · exact hle

/-- The same for every step: it starts the machine, executes an instruction, raises at the fetch, or changes nothing. -/
theorem step_keeps_clean (h : step s = .next t) (hs : s.Clean n) (hpc : s.pc.toNat ≤ 32768)
    (hl : ∀ i, nextTurn s = .execute i → ¬ Leaks i s) : t.Clean n ∧ t.pc.toNat ≤ 32768 := by
  rcases step_cases h with ⟨-, rfl⟩ | ⟨-, -, i, -, -, hi, he⟩ | ⟨-, hp, w, -, rfl⟩ | ⟨-, -, rfl⟩ | ⟨-, rfl⟩
  · exact ⟨hs, hpc⟩
  · exact exec_keeps_clean he hs hpc (hl i hi)
  · refine ⟨hs, ?_⟩
    rw [State.faulted_pc, State.fetched_pc_toNat w hp]
    omega
  · exact ⟨hs, hpc⟩
  · exact ⟨hs, hpc⟩

/-- The leak of `rmem` (R13): a valid cell above 32767 comes whole into the register. -/
theorem exec_rmem_leaks (r : RegId) (b : Operand) (hpc : s.pc.toNat + 3 ≤ 32768) (hl : Leaks (.rmem (.register r) b) s) :
    ∃ t, exec (.rmem (.register r) b) s = .next t ∧ ¬ Word.Canonical (t.reg r) := by
  obtain ⟨v, hb, hv, hcell⟩ := hl
  have h1 : s.pc.toNat < 32768 := by omega
  have e1 := State.fetched_pc_toNat 15 h1
  have h2 : (s.fetched 15).pc.toNat < 32768 := by omega
  have e2 := State.fetched_pc_toNat (Operand.register r).toWord h2
  have hb' : operandValue? b ((s.fetched 15).fetched (Operand.register r).toWord) = some v := by simpa using hb
  rw [exec_rmem, withFetch_ok _ _ h1, withTarget_ok _ _ h2, withValue_ok _ _ v (by omega) hb', memRead_ok _ _ hv]
  exact ⟨_, rfl, by simpa [Word.Canonical] using hcell⟩

/-- The leak of `call` (R13): with its opcode word at 32766 the return address is 32768. -/
theorem exec_call_leaks (a : Operand) (v : Word) (ha : operandValue? a s = some v) (hpc : s.pc = 32766) :
    ∃ t, exec (.call a) s = .next t ∧ t.stack.head? = some 32768 := by
  have h1 : s.pc.toNat < 32768 := by rw [hpc]; decide
  have h2 : (s.fetched 17).pc.toNat < 32768 := by rw [State.fetched_pc, hpc]; decide
  have ha' : operandValue? a (s.fetched 17) = some v := by simpa using ha
  rw [exec_call, withFetch_ok _ _ h1, withValue_ok _ _ v h2 ha']
  exact ⟨_, rfl, by simp [hpc]⟩

/-- Settles O52: every step keeps cleanness but for the two leaks, and each of these leaks. -/
theorem stepKeepsAStateCleanButForTwoLeaks : Obligations.StepKeepsAStateCleanButForTwoLeaks :=
  ⟨fun _ _ _ hs hpc hl h => step_keeps_clean h hs hpc hl, fun _ r b hpc hl => exec_rmem_leaks r b hpc hl,
    fun _ a v ha hpc => exec_call_leaks a v ha hpc⟩

end Sys2Proof.Machine
end

section
/-! Who changes the stack, the ports, pc and the registers (R12, R15, R17, R21), and that a register no value operand names is not read. -/

namespace Sys2Proof.Machine

variable {i : Instr} {s t u : State}

/-! ### The stack, the output history, the input sequence and pc -/

theorem Effect.stack_cases (h : Effect i s u t) :
    t.stack = u.stack ∨
    (∃ a v, (i = .push a ∧ operandValue? a s = some v ∨ i = .call a ∧ v = s.pc + 2) ∧ t.stack = v :: u.stack) ∨
    (∃ v, (i = .ret ∨ ∃ a, i = .pop a) ∧ s.stack = v :: t.stack) := by
  cases h with
  | pushed a v hi hv => exact .inr (.inl ⟨a, v, .inl ⟨hi, hv⟩, rfl⟩)
  | called a v hi hv => exact .inr (.inl ⟨a, _, .inr ⟨hi, rfl⟩, rfl⟩)
  | popped r v rest hi hs => exact .inr (.inr ⟨v, .inr ⟨_, hi⟩, hs⟩)
  | returned v rest hi hs => exact .inr (.inr ⟨v, .inl hi, hs⟩)
  | _ => exact .inl rfl

theorem Effect.output_cases (h : Effect i s u t) :
    t.output = u.output ∨ ∃ a v, i = .out a ∧ operandValue? a s = some v ∧ t.output = u.output ++ [v] := by
  cases h with
  | emitted a v hi hv => exact .inr ⟨a, v, hi, hv, rfl⟩
  | _ => exact .inl rfl

theorem Effect.input_cases (h : Effect i s u t) :
    t.input = u.input ∨ ∃ a ch, i = .inp a ∧ s.input = ch :: t.input := by
  cases h with
  | inputToReg r ch rest hi hs => exact .inr ⟨_, ch, hi, hs⟩
  | inputToMem a ch rest hi hs => exact .inr ⟨_, ch, hi, hs⟩
  | _ => exact .inl rfl

/-- Settles O48: by the effect of an instruction that completes, and one that stops short writes none of the three. -/
theorem stackAndPortFrame : Obligations.StackAndPortFrame := by
  intro i s t h
  rcases exec_completes_or_stopsShort h with hc | hstop
  · obtain ⟨-, he⟩ := hc.effect
    have hstack := he.stack_cases
    have hout := he.output_cases
    have hin := he.input_cases
    simp only [State.foldl_fetched_stack, State.foldl_fetched_output, State.foldl_fetched_input] at hstack hout hin
    exact ⟨hstack, hout, hin⟩
  · exact ⟨.inl hstop.stack, .inl hstop.output, hstop.input⟩

/-- Settles O49: what has neither a fatal status nor waited has completed, and then its effect says where pc is. -/
theorem onlyTransfersWritePc : Obligations.OnlyTransfersWritePc := by
  intro i s t _ h hfatal hwait
  rcases exec_completes_or_stopsShort h with hc | hstop
  · obtain ⟨-, he⟩ := hc.effect
    simpa only [State.foldl_fetched_pc] using he.pc_cases
  · rcases hstop.reason with hf | ⟨a, hi, hin⟩
    · simp [hf] at hfatal
    · exact absurd hin (hwait a hi)

/-! ### Registers that are written and registers that are read (R12) -/

/-- No register but the destination is written. -/
theorem exec_reg_of_ne_destination (h : exec i s = .next t) {r : RegId} (hr : destination? i ≠ some r) :
    t.reg r = s.reg r := by
  rcases exec_completes_or_stopsShort h with hc | hstop
  · obtain ⟨-, he⟩ := hc.effect
    rw [he.reg_of_ne_destination hr, State.reg_congr (State.foldl_fetched_x _ _)]
  · exact State.reg_congr hstop.x r

@[simp] theorem State.writeReg_writeReg_same (s : State) (r : RegId) (v w : Word) :
    (s.writeReg r v).writeReg r w = s.writeReg r w := by
  simp [State.writeReg]

@[simp] theorem State.writeReg_reg_same (s : State) (r : RegId) : s.writeReg r (s.reg r) = s := by
  simp [State.writeReg, State.reg]

/-- Of three writes, the first to the register of the last, the first does not show. -/
@[simp] theorem State.writeReg_writeReg_writeReg (s : State) (r q : RegId) (v x w : Word) :
    ((s.writeReg r v).writeReg q x).writeReg r w = (s.writeReg q x).writeReg r w := by
  by_cases h : r = q
  · subst h
    simp
  · have hne : (r : Nat) ≠ q := fun e => h (Fin.ext e)
    simp only [State.writeReg, State.mk.injEq, true_and, and_true]
    rw [Vector.set_comm _ _ hne, Vector.set_set]

@[simp] theorem mapNext_next (f : State → State) (s : State) : mapNext f (.next s) = .next (f s) := rfl

/-- What `k` does does not depend on register `r`: begun with another content `v` there, it answers the same, up to the
content of `r` (which `w` then covers). -/
def Ignores (r : RegId) (v w : Word) (k : State → Result) : Prop :=
  ∀ s, mapNext (fun t => t.writeReg r w) (k (s.writeReg r v)) = mapNext (fun t => t.writeReg r w) (k s)

section
variable {r : RegId} {v w : Word}

/-- An update that commutes with the write of `r` ignores it. -/
theorem Ignores.of_commutes {f : State → State} (h : ∀ s, f (s.writeReg r v) = (f s).writeReg r v) :
    Ignores r v w fun s => .next (f s) := by
  intro s
  simp [h]

theorem Ignores.writeReg (q : RegId) (x : Word) : Ignores r v w fun s => .next (s.writeReg q x) := by
  intro s
  simp

theorem Ignores.withFetch {k : State → Result} (x : Word) (hk : Ignores r v w k) :
    Ignores r v w fun s => withFetch x s k := by
  intro s
  by_cases hp : s.pc.toNat < 32768
  · simp only [withFetch_ok (s := s.writeReg r v) x k hp, withFetch_ok x k hp]
    exact hk (s.fetched x)
  · have hb : 32768 ≤ s.pc.toNat := Nat.not_lt.1 hp
    simp only [withFetch_bad (s := s.writeReg r v) x k hb, withFetch_bad x k hb]
    exact Ignores.of_commutes (f := fun s => s.faulted .invalidAddress s.pc) (fun _ => rfl) s

/-- The value of an operand that does not name the register written. -/
theorem operandValue?_writeReg {o : Operand} (h : operandTarget? o ≠ some r) :
    operandValue? o (s.writeReg r v) = operandValue? o s := by
  cases o with
  | literal _ => rfl
  | register q => exact congrArg some (State.reg_writeReg_other s r q v fun e => h (e ▸ rfl))
  | invalid _ => rfl

theorem Ignores.withValue {o : Operand} {k : Word → State → Result} (ho : operandTarget? o ≠ some r)
    (hk : ∀ x, Ignores r v w (k x)) : Ignores r v w fun s => withValue o s k := by
  refine Ignores.withFetch o.toWord fun s => ?_
  simp only [operandValue?_writeReg ho]
  cases operandValue? o s with
  | some x => exact hk x s
  | none => exact Ignores.of_commutes (f := fun s => s.faulted .invalidInstruction o.toWord) (fun _ => rfl) s

theorem Ignores.withTarget {k : RegId → State → Result} (o : Operand) (hk : ∀ q, Ignores r v w (k q)) :
    Ignores r v w fun s => withTarget o s k := by
  refine Ignores.withFetch o.toWord fun s => ?_
  cases operandTarget? o with
  | some q => exact hk q s
  | none => exact Ignores.of_commutes (f := fun s => s.faulted .invalidRegisterAddress o.toWord) (fun _ => rfl) s

theorem Ignores.threeOperands {b c : Operand} {k : RegId → Word → Word → State → Result} (op : Word) (a : Operand)
    (hb : operandTarget? b ≠ some r) (hc : operandTarget? c ≠ some r) (hk : ∀ q x y, Ignores r v w (k q x y)) :
    Ignores r v w fun s => threeOperands op a b c s k :=
  .withFetch op (.withTarget a fun q => .withValue hb fun x => .withValue hc fun y => hk q x y)

theorem Ignores.raise (f : Fatal) (info : Word) : Ignores r v w (raise f info) :=
  .of_commutes fun _ => rfl

theorem Ignores.memRead {k : Word → State → Result} (a : Word) (hk : ∀ x, Ignores r v w (k x)) :
    Ignores r v w fun s => memRead a s fun x => k x s := by
  intro s
  by_cases ha : a.toNat < 32768
  · simp only [memRead_ok _ _ ha]
    exact hk _ s
  · simp only [memRead_bad _ _ (Nat.not_lt.1 ha)]
    exact Ignores.raise .invalidAddress a s

theorem Ignores.memWrite (a x : Word) : Ignores r v w (memWrite a x) := by
  intro s
  by_cases ha : a.toNat < 32768
  · simp only [memWrite_ok _ _ ha]
    exact Ignores.of_commutes (f := fun s => s.writeMem a x) (fun _ => rfl) s
  · simp only [memWrite_bad _ _ (Nat.not_lt.1 ha)]
    exact Ignores.raise .invalidAddress a s

theorem Ignores.writeDestination (a : Operand) (ch : Word) : Ignores r v w (writeDestination a ch) := by
  cases a with
  | literal x => exact .memWrite _ _
  | register q => exact .writeReg q ch
  | invalid x => exact .raise _ _

/-- What a pop answers with another content in a register: the same value, and that register changed in the state left. -/
theorem State.popped?_writeReg (s : State) :
    (s.writeReg r v).popped? = s.popped?.map fun p => (p.1, p.2.writeReg r v) := by
  cases hs : s.stack with
  | nil => simp [State.popped?, hs]
  | cons x rest =>
    simp only [State.popped?, State.writeReg_stack, hs]
    rfl

/-- A pop, and the graceful halt where there is nothing to pop (R126). -/
theorem Ignores.popped {k : Word → State → Result} (hk : ∀ x, Ignores r v w (k x)) :
    Ignores r v w fun s =>
      match s.popped? with
      | some (x, s) => k x s
      | none => .next (s.endRun .haltedUnderflow) := by
  intro s
  simp only [State.popped?_writeReg]
  cases s.popped? with
  | some p => exact hk p.1 p.2
  | none => exact Ignores.of_commutes (f := fun s => s.endRun .haltedUnderflow) (fun _ => rfl) s

/-- `in` with no character to take waits, once its opcode word is fetched (R69, R115). -/
theorem exec_inp_of_nil (a : Operand) (h : s.input = []) : exec (.inp a) s = withFetch 20 s fun _ => .next s := by
  simp [exec_inp, withFetch, State.takeChar?, h]

/-- `in` with a character to take. -/
theorem exec_inp_of_cons (a : Operand) {ch : Byte} {rest : List Byte} (h : s.input = ch :: rest) :
    exec (.inp a) s =
      withFetch 20 s fun u => withFetch a.toWord { u with input := rest } (writeDestination a (ch.setWidth 16)) := by
  simp [exec_inp, withFetch, State.takeChar?, h]

theorem Ignores.inp (a : Operand) : Ignores r v w (exec (.inp a)) := by
  intro s
  cases hs : s.input with
  | nil =>
    rw [exec_inp_of_nil a hs, exec_inp_of_nil (s := s.writeReg r v) a hs]
    by_cases hp : s.pc.toNat < 32768
    · simp [withFetch_ok (s := s.writeReg r v) _ _ hp, withFetch_ok _ _ hp]
    · have hb : 32768 ≤ s.pc.toNat := Nat.not_lt.1 hp
      rw [withFetch_bad _ _ hb, withFetch_bad (s := s.writeReg r v) _ _ hb]
      exact Ignores.raise .invalidAddress s.pc s
  | cons ch rest =>
    rw [exec_inp_of_cons a hs, exec_inp_of_cons (s := s.writeReg r v) a hs]
    exact Ignores.withFetch 20 (fun u => Ignores.withFetch a.toWord (.writeDestination a _) { u with input := rest }) s

theorem mem_readRegisters :
    r ∈ readRegisters i ↔ ∃ o, (OperandKind.value, o) ∈ i.kinds.zip i.operands ∧ operandTarget? o = some r := by
  simp [readRegisters, List.mem_filterMap]

/-- An instruction ignores every register that no value operand names. -/
theorem exec_ignores (hr : r ∉ readRegisters i) : Ignores r v w (exec i) := by
  replace hr : ∀ o, (OperandKind.value, o) ∈ i.kinds.zip i.operands → operandTarget? o ≠ some r :=
    fun o ho e => hr (mem_readRegisters.2 ⟨o, ho, e⟩)
  cases i with
  | halt => exact .withFetch 0 (.of_commutes (f := fun s => s.endRun .halted) fun _ => rfl)
  | noop => exact .withFetch 21 (.of_commutes fun _ => rfl)
  | set a b | not a b =>
    exact .withFetch _ (.withTarget a fun q => .withValue (hr b (.tail _ (.head _))) fun x => .writeReg q _)
  | rmem a b =>
    exact .withFetch 15 (.withTarget a fun q => .withValue (hr b (.tail _ (.head _))) fun x =>
      .memRead x fun y => .writeReg q y)
  | wmem a b =>
    exact .withFetch 16 (.withValue (hr a (.head _)) fun x => .withValue (hr b (.tail _ (.head _))) fun y => .memWrite x y)
  | eq a b c | gt a b c | add a b c | mult a b c | and a b c | or a b c =>
    exact .threeOperands _ a (hr b (.tail _ (.head _))) (hr c (.tail _ (.tail _ (.head _)))) fun q x y => .writeReg q _
  | mod a b c =>
    refine .threeOperands 11 a (hr b (.tail _ (.head _))) (hr c (.tail _ (.tail _ (.head _)))) fun q x y => ?_
    by_cases hy : y = 0
    · simpa only [hy, if_true] using Ignores.raise .moduloByZero x
    · simpa only [hy, if_false] using Ignores.writeReg q (aluMod x y)
  | push a | jmp a | out a =>
    exact .withFetch _ (.withValue (hr a (.head _)) fun x => .of_commutes fun _ => rfl)
  | pop a => exact .withFetch 3 (.withTarget a fun q => .popped fun x => .writeReg q x)
  | jt a b | jf a b =>
    refine .withFetch _ (.withValue (hr a (.head _)) fun x => .withValue (hr b (.tail _ (.head _))) fun y =>
      .of_commutes fun s => ?_)
    cases isNonzero x <;> rfl
  | call a =>
    show Ignores r v w fun s => withFetch 17 s fun s => withValue a s fun x t => .next ((t.push (s.pc + 1)).jump x)
    exact .withFetch 17 fun s => Ignores.withValue (hr a (.head _)) (k := fun x t => .next ((t.push (s.pc + 1)).jump x))
      (fun x => .of_commutes fun _ => rfl) s
  | ret => exact .withFetch 18 (.popped fun x => .of_commutes fun _ => rfl)
  | inp a => exact .inp a

end

theorem readRegisters_subset_namedRegisters (i : Instr) : readRegisters i ⊆ namedRegisters i := by
  intro r hr
  obtain ⟨o, ho, e⟩ := mem_readRegisters.1 hr
  exact List.mem_filterMap.2 ⟨o, (List.of_mem_zip ho).2, e⟩

theorem destination_mem_namedRegisters {r : RegId} (h : destination? i = some r) : r ∈ namedRegisters i := by
  unfold destination? at h
  split at h
  case h_1 a _ _ ho => exact List.mem_filterMap.2 ⟨a, ho ▸ List.mem_cons_self, h⟩
  case h_2 a _ _ ho => exact List.mem_filterMap.2 ⟨a, ho ▸ List.mem_cons_self, h⟩
  case h_3 => cases h

/-- An instruction commutes with a change of a register it neither reads nor writes: it ignores the register's content, and
keeps it. -/
theorem exec_writeReg_of_not_named {r : RegId} {v : Word} (hr : r ∉ namedRegisters i) :
    exec i (s.writeReg r v) = mapNext (fun t => t.writeReg r v) (exec i s) := by
  have hread : r ∉ readRegisters i := fun h => hr (readRegisters_subset_namedRegisters i h)
  have hdest : destination? i ≠ some r := fun h => hr (destination_mem_namedRegisters h)
  have hagree := exec_ignores (v := v) (w := v) hread s
  cases h : exec i (s.writeReg r v) with
  | next t =>
    have hkept : t.reg r = v := by rw [exec_reg_of_ne_destination h hdest, State.reg_writeReg_same]
    have ht : t.writeReg r v = t := by rw [← hkept, State.writeReg_reg_same]
    rw [← hagree, h, mapNext_next, ht]
  | fault f => rw [← hagree, h]; rfl
  | refused f => rw [← hagree, h]; rfl

/-- Settles O46: what is read by `exec_ignores`, what is written by the effect, and the two together give commutation. -/
theorem onlyNamedRegistersAreReadOrWritten : Obligations.OnlyNamedRegistersAreReadOrWritten :=
  ⟨fun _ _ _ _ h hr => exec_reg_of_ne_destination h hr, fun _ _ _ _ hr => exec_writeReg_of_not_named hr,
    fun _ s _ _ _ hr => exec_ignores hr s⟩

end Sys2Proof.Machine
end

section
/-! Status and reset: the top of memory, terminal statuses, Create, and the status codes (R16, R20, R23, R132, R139, R140). -/

namespace Sys2Proof.Machine

theorem Status.terminal_iff (st : Status) :
    st.terminal = true ↔ st = .halted ∨ st = .haltedUnderflow ∨ ∃ k, st = .fatal k := by
  cases st <;> simp [Status.terminal, Status.success, Status.isFatal]

/-- Settles O39: the fetch guard fails, and the fatal condition is raised on the state as it stands. -/
theorem fetchAboveTheTopIsInvalidAddress : Obligations.FetchAboveTheTopIsInvalidAddress := by
  intro s hs hp
  have hbad : ¬ s.pc.toNat < Config.memWords := Nat.not_lt.2 hp
  simp only [step, nextTurn_running hs, fetchTurn, if_neg hbad, State.faulted]

/-- Settles O40, status by status. -/
theorem terminalStatusIsAbsorbing : Obligations.TerminalStatusIsAbsorbing := by
  intro s h
  rcases (Status.terminal_iff s.status).1 h with hs | hs | ⟨k, hs⟩ <;> simp only [step, nextTurn, hs]

@[simp] theorem State.reset_reg (r : RegId) : State.reset.reg r = 0 := by
  simp [State.reg, State.reset]

/-- All registers and cells are 0 after reset, and the stack is empty. -/
theorem State.reset_clean : State.reset.Clean 0 := by
  refine ⟨fun r => ?_, nofun, fun a _ _ => ?_⟩
  · rw [State.reset_reg]
    decide
  · rw [show State.reset.mem = [] from rfl, Memory.readCell_nil]
    decide

/-- Settles O53: Create is reset but for the input sequence, on which neither cleanness nor the form of memory depends. -/
theorem resetAndCreate : Obligations.ResetAndCreate := by
  intro s
  have hclean : s.create.Clean 0 := State.reset_clean.congr rfl rfl rfl
  exact ⟨Memory.readCell_nil, State.reset_reg, rfl, rfl, rfl, rfl, rfl, rfl, rfl, hclean, Memory.reset_wf,
    State.reset_clean, Memory.reset_wf⟩

/-- The status a code stands for (R20). -/
def statusOfCode (c : BitVec 4) : Status :=
  match c.toNat with
  | 0 => .ready
  | 1 => .running
  | 2 => .halted
  | 3 => .haltedUnderflow
  | 4 => .fatal .undefinedOpcode
  | 5 => .fatal .invalidInstruction
  | 6 => .fatal .invalidRegisterAddress
  | 7 => .fatal .invalidAddress
  | _ => .fatal .moduloByZero

theorem statusOfCode_code (st : Status) : statusOfCode st.code = st := by
  cases st with
  | fatal k => cases k <;> rfl
  | _ => rfl

theorem Status.code_injective : Function.Injective Status.code := Function.LeftInverse.injective statusOfCode_code

theorem Status.code_fatal (k : Fatal) : 4 ≤ (Status.fatal k).code.toNat ∧ (Status.fatal k).code.toNat ≤ 8 := by
  cases k <;> decide

/-- Settles O55: codes are told apart by decoding them, and each outcome is read off its range of codes. -/
theorem statusCodesAndOutcomes : Obligations.StatusCodesAndOutcomes := by
  refine ⟨by decide, fun a b h => Status.code_injective h, fun st => ?_⟩
  cases st with
  | ready => decide
  | running => decide
  | halted => decide
  | haltedUnderflow => decide
  | fatal k =>
    have ⟨h4, h8⟩ := Status.code_fatal k
    have h23 : ¬ ((Status.fatal k).code.toNat = 2 ∨ (Status.fatal k).code.toNat = 3) := by omega
    simp [Status.success, Status.isFatal, Status.terminal, h4, h8, h23]

end Sys2Proof.Machine
end

section
/-! Memory: which cell an instruction stores to and what is read afterwards, as data and as a fetched word (20_memory.md R31 to R33, R40), and that every step keeps the form of the memory list (log 1). -/

namespace Sys2Proof.Machine

variable {i : Instr} {s t u : State}

/-! ### What an instruction leaves in memory -/

theorem literal_canonical (v : BitVec 15) : Word.Canonical (v.setWidth 16) := by
  have := v.isLt
  simp only [Word.Canonical, BitVec.toNat_setWidth]
  omega

/-- An effect leaves memory as it was, or is one write at the store address (R33). -/
theorem Effect.mem_cases (h : Effect i s u t) :
    t.mem = u.mem ∨ ∃ w v, storeAddress? i s = some w ∧ t.mem = u.mem.writeCell w.toNat v := by
  cases h with
  | stored a b va vb hi ha hb => exact .inr ⟨va, vb, by rw [hi]; exact ha, rfl⟩
  | inputToMem a ch rest hi hs => exact .inr ⟨a.setWidth 16, ch.setWidth 16, by rw [hi]; rfl, rfl⟩
  | _ => exact .inl rfl

/-- An instruction that completes stores inside memory: `wmem` of a bad address is raised, and `in` has only literals for
addresses (R31, R113). -/
theorem Completes.storeAddress_canonical (h : Completes i s t) {w : Word} (hw : storeAddress? i s = some w) :
    w.Canonical := by
  obtain ⟨-, -, h⟩ := h
  unfold storeAddress? at hw
  split at hw
  case h_1 a b =>
    obtain ⟨va, vb, ha, -, hva, -⟩ := h
    rw [ha] at hw
    cases hw
    exact hva
  case h_2 v =>
    cases hw
    exact literal_canonical v
  case h_3 => cases hw

/-- An instruction leaves memory as it was, or has written the cell at its store address, which is inside memory. -/
theorem exec_mem_cases (h : exec i s = .next t) :
    t.mem = s.mem ∨ ∃ w v, storeAddress? i s = some w ∧ w.Canonical ∧ t.mem = s.mem.writeCell w.toNat v := by
  rcases exec_completes_or_stopsShort h with hc | hstop
  · obtain ⟨-, he⟩ := hc.effect
    have hmem := he.mem_cases
    rw [State.foldl_fetched_mem] at hmem
    exact hmem.imp_right fun ⟨w, v, hw, ht⟩ => ⟨w, v, hw, hc.storeAddress_canonical hw, ht⟩
  · exact .inl hstop.mem

/-- An instruction keeps the canonical form of memory. -/
theorem exec_keeps_mem_wf (h : exec i s = .next t) (hs : s.mem.wf = true) : t.mem.wf = true := by
  rcases exec_mem_cases h with e | ⟨w, v, -, hw, e⟩
  · rwa [e]
  · rw [e]
    exact Memory.writeCell_wf s.mem w.toNat v hs hw

/-- Settles O51: a step executes an instruction, or leaves memory as it was. -/
theorem stepKeepsTheMemoryCanonical : Obligations.StepKeepsTheMemoryCanonical := by
  intro s t hs h
  rcases step_cases h with ⟨-, rfl⟩ | ⟨-, -, i, -, -, -, he⟩ | ⟨-, -, w, -, rfl⟩ | ⟨-, -, rfl⟩ | ⟨-, rfl⟩
  · exact hs
  · exact exec_keeps_mem_wf he hs
  · exact hs
  · exact hs
  · exact hs

/-- Settles O11: the two guards decide the same way, and the memory written is `writeCell`'s. -/
theorem memoryPrimitives : Obligations.MemoryPrimitives := by
  intro s addr v k
  refine ⟨fun hle => ?_, fun hge => ⟨memRead_bad addr k hge, memWrite_bad addr v hge⟩⟩
  have hlt : addr.toNat < 32768 := Nat.lt_succ_of_le hle
  exact ⟨memRead_ok addr k hlt, s.mem.writeCell addr.toNat v, memWrite_ok addr v hlt,
    Memory.readCell_writeCell_same _ _ _, fun a ha => Memory.readCell_writeCell_other _ _ a v ha,
    fun hwf => Memory.writeCell_wf _ _ v hwf hlt⟩

/-- Settles O47: memory is the same, or one write at the store address. -/
theorem onlyTheStoredCellChanges : Obligations.OnlyTheStoredCellChanges := by
  intro i s t h
  rcases exec_mem_cases h with e | ⟨w, v, hw, -, e⟩
  · exact ⟨fun _ => e, fun a _ => by rw [e]⟩
  · refine ⟨fun hnone => by simp [hw] at hnone, fun a ha => ?_⟩
    rw [e]
    exact Memory.readCell_writeCell_other _ _ a v (ha w hw).symm

/-! ### A stored word is the word fetched (R40) -/

/-- The words of the fetch window are the cells from pc on. -/
theorem State.fetchWindow_getElem? (s : State) {n : Nat} (hn : n < 4) :
    s.fetchWindow[n]? = some (s.cellAt (s.pc.toNat + n)) := by
  match n, hn with
  | 0, _ | 1, _ | 2, _ | 3, _ => rfl

theorem State.cellAt_of_lt (s : State) {a : Nat} (ha : a < 32768) : s.cellAt a = s.mem.readCell a := by
  simp [State.cellAt, Config.memWords, ha]

/-- In a memory just written, every fetch of the cell written reads the word. -/
theorem everyFetchReads_writeCell (m : Memory) {a : Word} (v : Word) (ha : a.Canonical) :
    EveryFetchReads (m.writeCell a.toNat v) a v := by
  intro u hu
  have hread {n : Nat} (hn : n < 4) (hpc : u.pc.toNat + n = a.toNat) : u.fetchWindow[n]? = some v := by
    rw [u.fetchWindow_getElem? hn, hpc, u.cellAt_of_lt ha, hu, Memory.readCell_writeCell_same]
  refine ⟨fun hpc => ?_, hread (by decide), hread (by decide), hread (by decide)⟩
  rw [List.head?_eq_getElem?]
  exact hread (by decide) (congrArg BitVec.toNat hpc)

/-- `wmem` with its words in memory and legal: its store, after they are fetched (R77). -/
theorem exec_wmem_ok {a b : Operand} {va vb : Word} (hpc : s.pc.toNat + 3 ≤ 32768) (ha : operandValue? a s = some va)
    (hb : operandValue? b s = some vb) :
    exec (.wmem a b) s = memWrite va vb ((encode (.wmem a b)).foldl State.fetched s) := by
  have h1 : s.pc.toNat < 32768 := by omega
  have e1 := State.fetched_pc_toNat 16 h1
  have h2 : (s.fetched 16).pc.toNat < 32768 := by omega
  have e2 := State.fetched_pc_toNat a.toWord h2
  rw [exec_wmem, withFetch_ok _ _ h1, withValue_ok _ _ va h2 (by simpa using ha),
    withValue_ok _ _ vb (by omega) (by simpa using hb)]
  rfl

/-- `in` with its words in memory and a character to take: its write, after they are fetched and the character is taken (R113). -/
theorem exec_inp_ok (a : Operand) {ch : Byte} {rest : List Byte} (hpc : s.pc.toNat + 2 ≤ 32768)
    (hin : s.input = ch :: rest) :
    exec (.inp a) s =
      writeDestination a (ch.setWidth 16) { (encode (.inp a)).foldl State.fetched s with input := rest } := by
  have h1 : s.pc.toNat < 32768 := by omega
  have e1 := State.fetched_pc_toNat 20 h1
  have h2 : (s.fetched 20).pc.toNat < 32768 := by omega
  rw [exec_inp_of_cons a hin, withFetch_ok _ _ h1, withFetch_ok (s := { s.fetched 20 with input := rest }) _ _ h2]
  rfl

/-- Settles O12: both stores leave the memory with the cell written. -/
theorem fetchSeesTheStoredWord : Obligations.FetchSeesTheStoredWord := by
  constructor
  · intro s t a b va vb hpc ha hb hva h
    rw [exec_wmem_ok hpc ha hb, memWrite_ok va vb hva] at h
    cases h
    exact everyFetchReads_writeCell _ vb hva
  · intro s t v ch rest hpc hin h
    have hv := literal_canonical v
    rw [exec_inp_ok _ hpc hin, writeDestination, memWrite_ok _ _ hv] at h
    cases h
    exact everyFetchReads_writeCell _ _ hv

end Sys2Proof.Machine
end

section
/-! Encoding (30_encoding.md): each format reads a fixed number of operand words, so decoding and encoding undo each other (R45 to R48, R50). -/

namespace Sys2Proof

variable {op : Word}

/-! ### What each format reads (R47) -/

/-- The outcome `d` of decoding `ws` after the opcode word `op`, where the format asks for `n` operand words: with fewer
it is truncated, else an instruction of that opcode whose operands are the readings of the first `n` words. -/
def ReadsOperands (op : Word) (n : Nat) (ws : List Word) (d : Decoded) : Prop :=
  (ws.length < n → d = .error .truncated) ∧
  (n ≤ ws.length → ∃ i, d = .ok (i, ws.drop n) ∧ i.opcode = op ∧ i.operands = (ws.take n).map classify)

theorem decodeF0_readsOperands (i : Instr) (ws : List Word) (hop : i.opcode = op) (hargs : i.operands = []) :
    ReadsOperands op 0 ws (decodeF0 i ws) :=
  ⟨nofun, fun _ => ⟨i, rfl, hop, hargs⟩⟩

theorem decodeF1_readsOperands (mk : Operand → Instr) (ws : List Word) (hop : ∀ a, (mk a).opcode = op)
    (hargs : ∀ a, (mk a).operands = [a]) : ReadsOperands op 1 ws (decodeF1 mk ws) := by
  match ws with
  | [] => exact ⟨fun _ => rfl, nofun⟩
  | a :: rest => exact ⟨fun h => absurd h (by simp), fun _ => ⟨_, rfl, hop _, hargs _⟩⟩

theorem decodeF2_readsOperands (mk : Operand → Operand → Instr) (ws : List Word) (hop : ∀ a b, (mk a b).opcode = op)
    (hargs : ∀ a b, (mk a b).operands = [a, b]) : ReadsOperands op 2 ws (decodeF2 mk ws) := by
  match ws with
  | [] | [_] => exact ⟨fun _ => rfl, fun h => absurd h (by simp)⟩
  | a :: b :: rest => exact ⟨fun h => absurd h (by simp), fun _ => ⟨_, rfl, hop _ _, hargs _ _⟩⟩

theorem decodeF3_readsOperands (mk : Operand → Operand → Operand → Instr) (ws : List Word)
    (hop : ∀ a b c, (mk a b c).opcode = op) (hargs : ∀ a b c, (mk a b c).operands = [a, b, c]) :
    ReadsOperands op 3 ws (decodeF3 mk ws) := by
  match ws with
  | [] | [_] | [_, _] => exact ⟨fun _ => rfl, fun h => absurd h (by simp)⟩
  | a :: b :: c :: rest => exact ⟨fun h => absurd h (by simp), fun _ => ⟨_, rfl, hop _ _ _, hargs _ _ _⟩⟩

/-! ### The opcode map (R46, R50) -/

/-- A defined opcode fixes how many operand words are read (R47, R50). -/
theorem decode_readsOperands (hop : op.toNat ≤ 21) :
    ∃ n ≤ 3, formatWords op = some (n + 1) ∧ ∀ ws, ReadsOperands op n ws (decode (op :: ws)) := by
  obtain ⟨k, hk, rfl⟩ : ∃ k : Nat, k ≤ 21 ∧ op = BitVec.ofNat 16 k := ⟨op.toNat, hop, by simp⟩
  match k, hk with
  | 0, _ | 18, _ | 21, _ =>
    exact ⟨0, by decide, rfl, fun ws => decodeF0_readsOperands _ ws rfl rfl⟩
  | 2, _ | 3, _ | 6, _ | 17, _ | 19, _ | 20, _ =>
    exact ⟨1, by decide, rfl, fun ws => decodeF1_readsOperands _ ws (fun _ => rfl) fun _ => rfl⟩
  | 1, _ | 7, _ | 8, _ | 14, _ | 15, _ | 16, _ =>
    exact ⟨2, by decide, rfl, fun ws => decodeF2_readsOperands _ ws (fun _ _ => rfl) fun _ _ => rfl⟩
  | 4, _ | 5, _ | 9, _ | 10, _ | 11, _ | 12, _ | 13, _ =>
    exact ⟨3, by decide, rfl, fun ws => decodeF3_readsOperands _ ws (fun _ _ _ => rfl) fun _ _ _ => rfl⟩
  | k + 22, hk => omega

/-- A word above 21 is no opcode, whatever follows it (R46). -/
theorem decode_of_undefined (ws : List Word) (hop : 22 ≤ op.toNat) : decode (op :: ws) = .error (.undefinedOpcode op) := by
  obtain ⟨n, hn⟩ := Nat.exists_eq_add_of_le' hop
  simp only [decode, hn]

/-- An undefined opcode has no length (R53). -/
theorem formatWords_of_undefined (hop : 22 ≤ op.toNat) : formatWords op = none := by
  obtain ⟨n, hn⟩ := Nat.exists_eq_add_of_le' hop
  simp only [formatWords, hn]

/-- Only a defined opcode decodes, and then the instruction has that opcode and the readings of the operand words. -/
theorem decode_cons_ok {ws rest : List Word} {i : Instr} (h : decode (op :: ws) = .ok (i, rest)) :
    ∃ n ≤ ws.length, formatWords op = some (n + 1) ∧ rest = ws.drop n ∧ i.opcode = op ∧
      i.operands = (ws.take n).map classify := by
  rcases Nat.lt_or_ge op.toNat 22 with hop | hop
  · obtain ⟨n, -, hformat, hreads⟩ := decode_readsOperands (Nat.le_of_lt_succ hop)
    obtain ⟨htrunc, hok⟩ := hreads ws
    rcases Nat.lt_or_ge ws.length n with hlen | hlen
    · simp [htrunc hlen] at h
    · obtain ⟨j, hj, hjop, hjargs⟩ := hok hlen
      rw [hj] at h
      cases h
      exact ⟨n, hlen, hformat, rfl, hjop, hjargs⟩
  · simp [decode_of_undefined ws hop] at h

/-! ### Decoding and encoding undo each other -/

/-- Writing the operands read from words gives the words back (R48). -/
theorem map_toWord_map_classify (ws : List Word) : (ws.map classify).map Operand.toWord = ws := by
  simp [Function.comp_def]

/-- An instruction whose operands were read from words is well formed (R48). -/
theorem Instr.wellFormed_of_operands {i : Instr} {ws : List Word} (h : i.operands = ws.map classify) : i.WellFormed := by
  simp [Instr.WellFormed, Instr.wellFormed, h]

/-- Settles O2: the operands are the readings of the words, and each word is the word of its reading. -/
theorem encodeOfDecodeIsTheWords : Obligations.EncodeOfDecodeIsTheWords := by
  intro ws rest i h
  cases ws with
  | nil => cases h
  | cons op ws =>
    obtain ⟨n, -, -, rfl, hop, hargs⟩ := decode_cons_ok h
    refine ⟨Instr.wellFormed_of_operands hargs, ?_⟩
    rw [encode, hop, hargs, map_toWord_map_classify, List.cons_append, List.take_append_drop]

/-- A format reads well-formed operands back from their words (R47, R48). -/
theorem decodeF1_toWord (mk : Operand → Instr) {a : Operand} (rest : List Word) (h : [a].all Operand.wellFormed = true) :
    decodeF1 mk (a.toWord :: rest) = .ok (mk a, rest) := by
  simp only [List.all_cons, List.all_nil, Bool.and_true] at h
  simp [decodeF1, h]

theorem decodeF2_toWord (mk : Operand → Operand → Instr) {a b : Operand} (rest : List Word)
    (h : [a, b].all Operand.wellFormed = true) :
    decodeF2 mk (a.toWord :: b.toWord :: rest) = .ok (mk a b, rest) := by
  simp only [List.all_cons, List.all_nil, Bool.and_true, Bool.and_eq_true] at h
  simp [decodeF2, h]

theorem decodeF3_toWord (mk : Operand → Operand → Operand → Instr) {a b c : Operand} (rest : List Word)
    (h : [a, b, c].all Operand.wellFormed = true) :
    decodeF3 mk (a.toWord :: b.toWord :: c.toWord :: rest) = .ok (mk a b c, rest) := by
  simp only [List.all_cons, List.all_nil, Bool.and_true, Bool.and_eq_true] at h
  simp [decodeF3, h]

/-- Settles O1: the opcode word selects the instruction's format, which reads each operand back from its word. -/
theorem decodeOfEncodeIsTheInstruction : Obligations.DecodeOfEncodeIsTheInstruction := by
  intro i rest h
  cases i with
  | halt | ret | noop => rfl
  | push a | pop a | jmp a | call a | out a | inp a => exact decodeF1_toWord _ rest h
  | set a b | jt a b | jf a b | not a b | rmem a b | wmem a b => exact decodeF2_toWord _ rest h
  | eq a b c | gt a b c | add a b c | mult a b c | mod a b c | and a b c | or a b c => exact decodeF3_toWord _ rest h

/-! ### The length of an instruction (R47, R53) -/

/-- Settles O5: the opcode word alone fixes how many operand words are read. -/
theorem lengthIsFixedByTheOpcode : Obligations.LengthIsFixedByTheOpcode := by
  refine ⟨fun op ws rest i h => ?_, fun op ws hlen hop => ?_, fun op => ⟨fun hnone => ?_, formatWords_of_undefined⟩⟩
  · obtain ⟨n, hn, hformat, rfl, -, -⟩ := decode_cons_ok h
    rw [hformat, List.length_drop]
    exact ⟨congrArg some (by omega), by omega⟩
  · obtain ⟨n, hn, -, hreads⟩ := decode_readsOperands hop
    obtain ⟨i, hi, -, -⟩ := (hreads ws).2 (hn.trans hlen)
    exact ⟨i, _, hi⟩
  · by_contra hop
    obtain ⟨n, -, hformat, -⟩ := decode_readsOperands (op := op) (by omega)
    simp [hformat] at hnone

/-! ### Fixed words, and the ranges of an operand word -/

/-- Settles O3: each list of words is decoded by evaluation. -/
theorem writtenOutWordsDecode : Obligations.WrittenOutWordsDecode := by
  unfold Obligations.WrittenOutWordsDecode
  decide

/-- A word of the register range is read as the register of that number. -/
theorem exists_classify_register (w : Word) (h : 32768 ≤ w.toNat) (h' : w.toNat < 32776) :
    ∃ r : RegId, classify w = .register r ∧ r.val = w.toNat - 32768 := by
  rcases classify_cases w with ⟨hlit, -⟩ | ⟨r, hr, hreg⟩ | ⟨hinv, -⟩
  · omega
  · exact ⟨r, hreg, by omega⟩
  · omega

/-- Bit 15 of a word is set from 32768 on. -/
theorem getLsbD_fifteen (w : Word) : w.getLsbD 15 = decide (32768 ≤ w.toNat) := BitVec.msb_eq_decide w

/-- Above bit 15, bits 14 to 3 are clear exactly in the eight words of the register range. -/
theorem extractLsb'_three_twelve_eq_zero (w : Word) (h : 32768 ≤ w.toNat) : w.extractLsb' 3 12 = 0 ↔ w.toNat < 32776 := by
  have hlt := w.isLt
  rw [← BitVec.toNat_inj, BitVec.extractLsb'_toNat, Nat.shiftRight_eq_div_pow]
  simp only [BitVec.reduceToNat, BitVec.ofNat_eq_ofNat]
  omega

/-- Bits 2 to 0 of a register word are the register's number. -/
theorem extractLsb'_zero_three_toNat (w : Word) (h : 32768 ≤ w.toNat) (h' : w.toNat < 32776) :
    (w.extractLsb' 0 3).toNat = w.toNat - 32768 := by
  rw [BitVec.extractLsb'_toNat, Nat.shiftRight_zero]
  omega

/-- Settles O4: the range clauses are the laws of `classify`, and each bit clause says one of the same ranges. -/
theorem operandWordIsReadByItsRange : Obligations.OperandWordIsReadByItsRange := by
  intro w
  rw [getLsbD_fifteen, decide_eq_false_iff_not, decide_eq_true_eq]
  refine ⟨fun h => ?_, fun ⟨h, h'⟩ => ?_, classify_invalid w, fun h => classify_literal w (by omega), fun ⟨h, h'⟩ => ?_,
    fun ⟨h, h'⟩ => ?_⟩
  · exact ⟨_, classify_literal w (by omega), by rw [BitVec.toNat_setWidth]; omega⟩
  · exact exists_classify_register w h (by omega)
  · rw [extractLsb'_three_twelve_eq_zero w h] at h'
    rw [extractLsb'_zero_three_toNat w h h']
    exact exists_classify_register w h h'
  · rw [ne_eq, extractLsb'_three_twelve_eq_zero w h] at h'
    exact classify_invalid w (by omega)

end Sys2Proof
end

section
/-! Fetch and dispatch (40_fetch_dispatch.md): FetchRaw, ResolveValue and ResolveTarget (R60 to R62), the step as exec of what stands at pc (R63), and the trace, which nothing depends on (R70). -/

namespace Sys2Proof.Machine

variable {i : Instr} {s t u : State}

/-! ### Fetch and operand resolution (R60 to R62) -/

/-- Settles O8: the two outcomes of the fetch guard; below 32768 the new pc does not wrap. -/
theorem fetchRawRule : Obligations.FetchRawRule := by
  intro w s k
  refine ⟨fun hle => ?_, withFetch_bad w k⟩
  have hlt : s.pc.toNat < 32768 := Nat.lt_succ_of_le hle
  exact ⟨withFetch_ok w k hlt, State.fetched_pc_toNat w hlt⟩

/-- The value of the literal read from a word up to 32767 is the word. -/
theorem setWidth_fifteen_setWidth (w : Word) (h : w.toNat < 32768) : (w.setWidth 15).setWidth 16 = w := by
  have hword := toWord_classify w
  rwa [classify_literal w h] at hword

/-- Settles O6, reading by reading (R48). -/
theorem resolveValueRule : Obligations.ResolveValueRule := by
  intro w s k
  rw [withValue, toWord_classify]
  refine ⟨fun h => ?_, fun r h => ?_, fun h => ?_⟩
  · have hlt : w.toNat < 32768 := Nat.lt_succ_of_le h
    simp only [classify_literal w hlt, operandValue?, setWidth_fifteen_setWidth w hlt]
  · simp only [classify_register w r h, operandValue?]
  · simp only [classify_invalid w h, operandValue?, raise_eq, State.faulted]

/-- Settles O7: only the register range names a register; literals and invalid words are refused alike. -/
theorem resolveTargetRule : Obligations.ResolveTargetRule := by
  intro w s k
  rw [withTarget, toWord_classify]
  refine ⟨fun r h => ?_, fun h => ?_⟩
  · simp only [classify_register w r h, operandTarget?]
  · have hnone : operandTarget? (classify w) = none := by
      rcases h with h | h
      · rw [classify_literal w (Nat.lt_succ_of_le h), operandTarget?]
      · rw [classify_invalid w h, operandTarget?]
    simp only [hnone, raise_eq, State.faulted]

/-! ### The step (R63) -/

/-- A running step executes the instruction at pc. -/
theorem step_of_decode {rest : List Word} (hs : s.status = .running) (hp : s.pc.toNat < 32768)
    (hd : decode s.fetchWindow = .ok (i, rest)) : step s = exec i s := by
  have hguard : s.pc.toNat < Config.memWords := hp
  simp only [step, nextTurn_running hs, fetchTurn, if_pos hguard, hd]

/-- A running step at an undefined opcode fetches the word and raises (R121). -/
theorem step_of_undefined {w : Word} (hs : s.status = .running) (hp : s.pc.toNat < 32768)
    (hd : decode s.fetchWindow = .error (.undefinedOpcode w)) :
    step s = .next ((s.fetched w).faulted .undefinedOpcode w) := by
  have hguard : s.pc.toNat < Config.memWords := hp
  simp only [step, nextTurn_running hs, fetchTurn, if_pos hguard, hd]

/-- Settles O37: the dispatcher's table, and the window as the cells from pc on. -/
theorem stepRunsTheDecodedInstruction : Obligations.StepRunsTheDecodedInstruction := by
  intro s hs hp
  refine ⟨fun i rest hd => step_of_decode hs hp hd, fun n hn hcell => ?_⟩
  rw [s.fetchWindow_getElem? hn, s.cellAt_of_lt hcell]

/-! ### More trace in front, more input behind

The trace is only appended to and the input sequence only consumed from its front, so an instruction commutes with putting
events before the one and characters after the other. Only an `in` that waits sees a character more. -/

/-- `s` with the events `l` in front of the trace and the characters `d` at the end of the input sequence. -/
def State.extend (s : State) (l : List (Word × Word)) (d : List Byte) : State :=
  { s with trace := l ++ s.trace, input := s.input ++ d }

/-- `k` does the same in an extended state, and keeps the extension. -/
def Commutes (l : List (Word × Word)) (d : List Byte) (k : State → Result) : Prop :=
  ∀ s, k (s.extend l d) = mapNext (fun t => t.extend l d) (k s)

section
variable {l : List (Word × Word)} {d : List Byte}

theorem State.extend_nil (s : State) : s.extend l [] = { s with trace := l ++ s.trace } := by
  simp [State.extend]

theorem State.extend_fetched (w : Word) (s : State) : (s.extend l d).fetched w = (s.fetched w).extend l d := by
  simp [State.extend, State.fetched]

theorem operandValue?_extend (o : Operand) (s : State) : operandValue? o (s.extend l d) = operandValue? o s := by
  cases o <;> rfl

theorem State.popped?_extend (s : State) :
    (s.extend l d).popped? = s.popped?.map fun p => (p.1, p.2.extend l d) := by
  cases hs : s.stack <;> simp [State.popped?, State.extend, hs]

/-- A fetch meets an extension pc by pc: what is done next has only to agree after the fetch. -/
theorem withFetch_extend {k k' : State → Result} (w : Word)
    (h : k' ((s.fetched w).extend l d) = mapNext (fun t => t.extend l d) (k (s.fetched w))) :
    withFetch w (s.extend l d) k' = mapNext (fun t => t.extend l d) (withFetch w s k) := by
  by_cases hp : s.pc.toNat < 32768
  · rw [withFetch_ok w k hp, withFetch_ok (s := s.extend l d) w k' hp, State.extend_fetched, h]
  · have hb : 32768 ≤ s.pc.toNat := Nat.not_lt.1 hp
    rw [withFetch_bad w k hb, withFetch_bad (s := s.extend l d) w k' hb]
    rfl

/-- An update of other fields commutes. -/
theorem Commutes.next {f : State → State} (h : ∀ s, f (s.extend l d) = (f s).extend l d) :
    Commutes l d fun s => .next (f s) :=
  fun s => congrArg Host.Outcome.next (h s)

theorem Commutes.raise (f : Fatal) (info : Word) : Commutes l d (raise f info) :=
  .next fun _ => rfl

theorem Commutes.withFetch {k : State → Result} (w : Word) (hk : Commutes l d k) :
    Commutes l d fun s => withFetch w s k :=
  fun s => withFetch_extend w (hk (s.fetched w))

theorem Commutes.withValue {k : Word → State → Result} (o : Operand) (hk : ∀ v, Commutes l d (k v)) :
    Commutes l d fun s => withValue o s k := by
  refine Commutes.withFetch o.toWord fun s => ?_
  simp only [operandValue?_extend]
  cases operandValue? o s with
  | some v => exact hk v s
  | none => rfl

theorem Commutes.withTarget {k : RegId → State → Result} (o : Operand) (hk : ∀ r, Commutes l d (k r)) :
    Commutes l d fun s => withTarget o s k := by
  refine Commutes.withFetch o.toWord fun s => ?_
  cases operandTarget? o with
  | some r => exact hk r s
  | none => rfl

theorem Commutes.threeOperands {k : RegId → Word → Word → State → Result} (op : Word) (a b c : Operand)
    (hk : ∀ r v w, Commutes l d (k r v w)) : Commutes l d fun s => threeOperands op a b c s k :=
  .withFetch op (.withTarget a fun r => .withValue b fun v => .withValue c fun w => hk r v w)

theorem Commutes.memRead {k : Word → State → Result} (a : Word) (hk : ∀ v, Commutes l d (k v)) :
    Commutes l d fun s => memRead a s fun v => k v s := by
  intro s
  by_cases ha : a.toNat < 32768
  · simp only [memRead_ok _ _ ha]
    exact hk _ s
  · simp only [memRead_bad _ _ (Nat.not_lt.1 ha)]
    rfl

theorem Commutes.memWrite (a v : Word) : Commutes l d (memWrite a v) := by
  intro s
  by_cases ha : a.toNat < 32768
  · simp only [memWrite_ok _ _ ha]
    rfl
  · simp only [memWrite_bad _ _ (Nat.not_lt.1 ha)]
    rfl

theorem Commutes.writeDestination (a : Operand) (ch : Word) : Commutes l d (writeDestination a ch) := by
  cases a with
  | literal v => exact .memWrite _ _
  | register r => exact .next fun _ => rfl
  | invalid w => exact .raise _ w

/-- A pop, and the graceful halt where there is nothing to pop (R126). -/
theorem Commutes.popped {k : Word → State → Result} (hk : ∀ v, Commutes l d (k v)) :
    Commutes l d fun s =>
      match s.popped? with
      | some (v, s) => k v s
      | none => .next (s.endRun .haltedUnderflow) := by
  intro s
  simp only [State.popped?_extend]
  cases s.popped? with
  | some p => exact hk p.1 p.2
  | none => rfl

/-- `in` commutes too, unless it waits and is given a character. -/
theorem exec_inp_extend (a : Operand) (h : s.input = [] → d = []) :
    exec (.inp a) (s.extend l d) = mapNext (fun t => t.extend l d) (exec (.inp a) s) := by
  cases hs : s.input with
  | nil =>
    have hnone : (s.extend l d).input = [] := by simp [State.extend, hs, h hs]
    rw [exec_inp_of_nil a hs, exec_inp_of_nil a hnone]
    exact withFetch_extend 20 rfl
  | cons ch rest =>
    have hsome : (s.extend l d).input = ch :: (rest ++ d) := by simp [State.extend, hs]
    rw [exec_inp_of_cons a hs, exec_inp_of_cons a hsome]
    exact withFetch_extend 20 (Commutes.withFetch a.toWord (.writeDestination a _) { s.fetched 20 with input := rest })

/-- Every instruction but `in` commutes with an extension. -/
theorem exec_commutes (hi : ∀ a, i ≠ .inp a) : Commutes l d (exec i) := by
  cases i with
  | inp a => exact absurd rfl (hi a)
  | halt => exact .withFetch 0 (.next (f := fun s => s.endRun .halted) fun _ => rfl)
  | noop => exact .withFetch 21 (.next (f := id) fun _ => rfl)
  | set a b | not a b => exact .withFetch _ (.withTarget a fun _ => .withValue b fun _ => .next fun _ => rfl)
  | rmem a b =>
    exact .withFetch _ (.withTarget a fun _ => .withValue b fun v => .memRead v fun _ => .next fun _ => rfl)
  | wmem a b => exact .withFetch _ (.withValue a fun va => .withValue b fun vb => .memWrite va vb)
  | eq a b c | gt a b c | add a b c | mult a b c | and a b c | or a b c =>
    exact .threeOperands _ a b c fun _ _ _ => .next fun _ => rfl
  | mod a b c =>
    refine .threeOperands _ a b c fun r vb vc => ?_
    by_cases hz : vc = 0
    · simpa only [hz, if_true] using Commutes.raise .moduloByZero vb
    · simpa only [hz, if_false] using Commutes.next fun _ => rfl
  | push a | jmp a | out a => exact .withFetch _ (.withValue a fun _ => .next fun _ => rfl)
  | call a =>
    intro s
    rw [exec_call, exec_call]
    refine withFetch_extend 17 ?_
    exact Commutes.withValue a (fun _ => .next fun _ => rfl) (s.fetched 17)
  | pop a => exact .withFetch _ (.withTarget a fun _ => .popped fun _ => .next fun _ => rfl)
  | ret => exact .withFetch _ (.popped fun _ => .next fun _ => rfl)
  | jt a b | jf a b =>
    refine .withFetch _ (.withValue a fun va => .withValue b fun _ => .next fun _ => ?_)
    cases isNonzero va <;> rfl

/-- An instruction commutes with an extension, unless it is an `in` that waits and is given a character. -/
theorem exec_extend (h : ∀ a, i = .inp a → s.input = [] → d = []) :
    exec i (s.extend l d) = mapNext (fun t => t.extend l d) (exec i s) := by
  by_cases hi : ∃ a, i = .inp a
  · obtain ⟨a, rfl⟩ := hi
    exact exec_inp_extend a (h a rfl)
  · exact exec_commutes (fun a ha => hi ⟨a, ha⟩) s

/-- A step commutes with an extension, unless its instruction is an `in` that waits and is given a character. -/
theorem step_extend (h : ∀ a, nextTurn s = .execute (.inp a) → s.input = [] → d = []) :
    step (s.extend l d) = mapNext (fun t => t.extend l d) (step s) := by
  cases hs : s.status with
  | running =>
    have hs' : (s.extend l d).status = .running := hs
    rcases fetchTurn_cases s with ⟨i, rest, hp, hd, hturn⟩ | ⟨w, hp, hd, -⟩ | ⟨hb, -⟩
    · rw [step_of_decode hs hp hd, step_of_decode (s := s.extend l d) hs' hp hd]
      refine exec_extend fun a hi => h a ?_
      rw [nextTurn_running hs, hturn, hi]
    · rw [step_of_undefined hs hp hd, step_of_undefined (s := s.extend l d) hs' hp hd, State.extend_fetched]
      rfl
    · rw [fetchAboveTheTopIsInvalidAddress s hs hb, fetchAboveTheTopIsInvalidAddress (s.extend l d) hs' hb]
      rfl
  | ready =>
    have hs' : (s.extend l d).status = .ready := hs
    simp only [step, nextTurn_ready hs, nextTurn_ready hs']
    rfl
  | halted | haltedUnderflow | fatal =>
    have hterm : s.status.terminal = true := by rw [hs]; rfl
    rw [terminalStatusIsAbsorbing s hterm, terminalStatusIsAbsorbing (s.extend l d) hterm]
    rfl

end

/-! ### The events of an instruction (R38, R70) -/

@[simp] theorem State.foldl_fetched_trace (ws : List Word) (s : State) :
    (ws.foldl State.fetched s).trace = s.trace ++ fetchEvents s.pc ws := by
  simp [State.foldl_fetched]

/-- Only fetches emit events. -/
theorem Effect.trace (h : Effect i s u t) : t.trace = u.trace := by
  cases h <;> rfl

/-- What neither raised a fatal condition nor waited has completed. -/
theorem exec_completes (h : exec i s = .next t) (hfatal : t.status.isFatal = false)
    (hwait : ∀ a, i = .inp a → s.input ≠ []) : Completes i s t := by
  rcases exec_completes_or_stopsShort h with hc | hstop
  · exact hc
  · rcases hstop.reason with hf | ⟨a, hi, hin⟩
    · simp [hf] at hfatal
    · exact absurd hin (hwait a hi)

/-- Settles O50: a step commutes with events put before the trace, and a completed instruction emits by its fetches alone. -/
theorem traceIsObservational : Obligations.TraceIsObservational := by
  refine ⟨fun s l => ?_, fun i s t _ h hfatal hwait => ?_⟩
  · simpa only [State.extend_nil] using step_extend (s := s) (l := l) (d := []) fun _ _ _ => rfl
  · obtain ⟨-, he⟩ := (exec_completes h hfatal hwait).effect
    rw [he.trace, State.foldl_fetched_trace]

end Sys2Proof.Machine
end

section
/-! Data movement (41_data_move.md R75 to R77), and with it what any instruction needs for its faults in order (R130): each resolution of an operand meets the scan of the operand words. -/

namespace Sys2Proof.Machine

variable {s : State}

/-! ### Faults in the order of the words (R130) -/

/-- `r`, answered in `s`, takes the first fault that a scan of the operands `ops` finds from pc on: the words before it are
fetched, and nothing else is done. -/
def TakesScannedFault (ops : List (OperandKind × Operand)) (s : State) (r : Result) : Prop :=
  ∀ p n f, s.pc.toNat = p + n → scanOperands p n ops = some f →
    ∃ m, m ≤ ops.length ∧ f.fetched = n + m ∧
      r = .next ((((ops.map fun o => o.2.toWord).take m).foldl State.fetched s).faulted f.kind f.info)

/-- With no operand word left there is no fault. -/
theorem TakesScannedFault.nil (r : Result) : TakesScannedFault [] s r := nofun

theorem TakesScannedFault.value {o : Operand} {ops : List (OperandKind × Operand)} {k : Word → State → Result}
    (hk : ∀ v, TakesScannedFault ops (s.fetched o.toWord) (k v (s.fetched o.toWord))) :
    TakesScannedFault ((.value, o) :: ops) s (withValue o s k) := by
  intro p n f hp hf
  rcases withValue_scan p n o ops f k hp hf with ⟨hr, hn⟩ | ⟨hr, hn⟩ | ⟨v, hr, -, hp', hf'⟩
  · exact ⟨0, Nat.zero_le _, hn, hr⟩
  · exact ⟨1, Nat.le_add_left 1 _, hn, hr⟩
  · obtain ⟨m, hm, hn, ht⟩ := hk v p (n + 1) f hp' hf'
    exact ⟨m + 1, Nat.succ_le_succ hm, by omega, hr.trans ht⟩

theorem TakesScannedFault.target {o : Operand} {ops : List (OperandKind × Operand)} {k : RegId → State → Result}
    (hk : ∀ r, TakesScannedFault ops (s.fetched o.toWord) (k r (s.fetched o.toWord))) :
    TakesScannedFault ((.target, o) :: ops) s (withTarget o s k) := by
  intro p n f hp hf
  rcases withTarget_scan p n o ops f k hp hf with ⟨hr, hn⟩ | ⟨hr, hn⟩ | ⟨r, hr, -, hp', hf'⟩
  · exact ⟨0, Nat.zero_le _, hn, hr⟩
  · exact ⟨1, Nat.le_add_left 1 _, hn, hr⟩
  · obtain ⟨m, hm, hn, ht⟩ := hk r p (n + 1) f hp' hf'
    exact ⟨m + 1, Nat.succ_le_succ hm, by omega, hr.trans ht⟩

/-- The opcode word, then the word of every operand position (R45, R49). -/
theorem encode_eq_opcode_cons_words (i : Instr) :
    encode i = i.opcode :: (i.kinds.zip i.operands).map fun o => o.2.toWord := by
  cases i <;> rfl

/-- An instruction that fetches its opcode word and then takes the first fault of its operand words takes its faults in order. -/
theorem faultsInOrder_of_scan {i : Instr} {k : State → Result} (hexec : ∀ s, exec i s = withFetch i.opcode s k)
    (hk : ∀ s, TakesScannedFault (i.kinds.zip i.operands) s (k s)) : FaultsInOrder i := by
  intro s f hf
  rw [hexec]
  rcases operandFault?_cases i f hf with ⟨hbad, rfl⟩ | ⟨hlt, hscan⟩
  · rw [withFetch_bad _ _ hbad, State.afterFault_eq _ _ _ (Nat.zero_le _)]
    rfl
  · obtain ⟨m, hm, hn, hr⟩ := hk _ _ _ _ (State.fetched_pc_toNat i.opcode hlt) hscan
    have hlen : f.fetched ≤ (encode i).length := by
      rw [encode_eq_opcode_cons_words, List.length_cons, List.length_map]
      omega
    rw [withFetch_ok _ _ hlt, hr, State.afterFault_eq _ _ _ hlen, encode_eq_opcode_cons_words, hn, Nat.add_comm,
      List.take_succ_cons, List.foldl_cons]

/-! ### `set`, `rmem` and `wmem` (R75 to R77) -/

/-- The shape target, value goes on when the three words are legal and inside memory. -/
theorem targetValue_ok (op : Word) (r : RegId) {b : Operand} {vb : Word} (k : RegId → Word → State → Result)
    (hpc : s.pc.toNat + 3 ≤ 32768) (hb : operandValue? b s = some vb) :
    (withFetch op s fun s => withTarget (.register r) s fun r s => withValue b s (k r)) =
      k r vb ([op, (Operand.register r).toWord, b.toWord].foldl State.fetched s) := by
  have h1 : s.pc.toNat < 32768 := by omega
  have e1 := State.fetched_pc_toNat op h1
  have h2 : (s.fetched op).pc.toNat < 32768 := by omega
  have e2 := State.fetched_pc_toNat (Operand.register r).toWord h2
  rw [withFetch_ok _ _ h1, withTarget_ok _ _ h2, withValue_ok _ _ vb (by omega) (by simpa using hb)]
  rfl

/-- Settles O13: after its three fetches `set` only writes the register. -/
theorem setCopiesItsValue : Obligations.SetCopiesItsValue := by
  refine ⟨fun _ _ => rfl, fun a b => ?_, fun s r b vb hpc hb => ?_⟩
  · exact faultsInOrder_of_scan (fun _ => exec_set a b) fun _ => .target fun _ => .value fun _ => .nil _
  · rw [exec_set, targetValue_ok 1 r (fun r vb s => .next (s.writeReg r vb)) hpc hb, State.foldl_fetched]
    rfl

/-- Settles O14: after its three fetches `rmem` reads memory, which they have left as it was, and the two outcomes of the
read are the two clauses. -/
theorem rmemLoadsTheWholeCell : Obligations.RmemLoadsTheWholeCell := by
  refine ⟨fun _ _ => rfl, fun a b => ?_, fun s r b vb hpc hb => ?_⟩
  · exact faultsInOrder_of_scan (fun _ => exec_rmem a b) fun _ => .target fun _ => .value fun _ => .nil _
  · rw [exec_rmem, targetValue_ok 15 r (fun r vb s => memRead vb s fun v => .next (s.writeReg r v)) hpc hb,
      State.foldl_fetched]
    refine ⟨fun hle => ?_, fun hbad => ?_⟩
    · rw [memRead_ok _ _ (Nat.lt_succ_of_le hle)]
      rfl
    · rw [memRead_bad _ _ hbad]
      rfl

/-- Settles O15: after its three fetches `wmem` writes memory, and the two outcomes of the write are the two clauses. -/
theorem wmemStoresOneCell : Obligations.WmemStoresOneCell := by
  refine ⟨fun _ _ => rfl, fun a b => ?_, fun s a b va vb hpc ha hb => ?_⟩
  · exact faultsInOrder_of_scan (fun _ => exec_wmem a b) fun _ => .value fun _ => .value fun _ => .nil _
  · rw [exec_wmem_ok hpc ha hb, State.foldl_fetched]
    refine ⟨fun hle => ⟨s.mem.writeCell va.toNat vb, ?_, Memory.readCell_writeCell_same _ _ _,
      fun c hc => Memory.readCell_writeCell_other _ _ c vb hc⟩, fun hbad => ?_⟩
    · rw [memWrite_ok _ _ (Nat.lt_succ_of_le hle)]
      rfl
    · rw [memWrite_bad _ _ hbad]
      rfl

end Sys2Proof.Machine
end

section
/-! Arithmetic, logic, comparison (42_alu.md R80 to R89): the rule the three-operand instructions share, the unit's functions as numbers, which results are canonical, and the idioms of R56. -/

namespace Sys2Proof.Machine

variable {s : State}

/-! ### The shape target, value, value (R80) -/

/-- `threeOperands_ok` with the state after the four fetches as one list of words. -/
theorem threeOperands_ok_foldl (op : Word) (r : RegId) {b c : Operand} {vb vc : Word}
    (k : RegId → Word → Word → State → Result) (hpc : s.pc.toNat + 4 ≤ 32768) (hb : operandValue? b s = some vb)
    (hc : operandValue? c s = some vc) :
    threeOperands op (.register r) b c s k =
      k r vb vc ([op, (Operand.register r).toWord, b.toWord, c.toWord].foldl State.fetched s) :=
  threeOperands_ok op r b c vb vc k hpc hb hc

/-- Whatever is done with its operands, an instruction of this shape takes its faults in order. -/
theorem faultsInOrder_of_threeOperands {i : Instr} {a b c : Operand} {k : RegId → Word → Word → State → Result}
    (hops : i.kinds.zip i.operands = [(.target, a), (.value, b), (.value, c)])
    (hexec : ∀ s, exec i s = threeOperands i.opcode a b c s k) : FaultsInOrder i := by
  refine faultsInOrder_of_scan hexec fun s => ?_
  rw [hops]
  exact .target fun _ => .value fun _ => .value fun _ => .nil _

/-- An instruction of this shape that writes `f vb vc` to its target keeps the rule of R80. -/
theorem threeOperandRule_of_exec {op : Word} {mk : Operand → Operand → Operand → Instr} {f : Word → Word → Word}
    (hop : ∀ a b c, (mk a b c).opcode = op)
    (hops : ∀ a b c, (mk a b c).kinds.zip (mk a b c).operands = [(.target, a), (.value, b), (.value, c)])
    (hexec : ∀ a b c s, exec (mk a b c) s = threeOperands op a b c s fun r vb vc s => .next (s.writeReg r (f vb vc))) :
    ThreeOperandRule op mk f := by
  refine ⟨fun a b c => ?_, fun a b c => ?_, fun s r b c vb vc hpc hb hc => ?_⟩
  · rw [encode_eq_opcode_cons_words, hop, hops]
    rfl
  · exact faultsInOrder_of_threeOperands (hops a b c) (by simpa only [hop] using hexec a b c)
  · rw [hexec, threeOperands_ok_foldl _ _ _ hpc hb hc, State.foldl_fetched]
    rfl

/-! ### The unit's functions as numbers -/

theorem boolWord_decide (p : Prop) [Decidable p] : boolWord (decide p) = if p then 1 else 0 := by
  simp only [boolWord, decide_eq_true_eq]

theorem aluAdd_toNat (b c : Word) : (aluAdd b c).toNat = (b.toNat + c.toNat) % 32768 := by
  simp only [aluAdd, BitVec.toNat_ofNat, Config.valueMod]
  omega

theorem aluMult_toNat (b c : Word) : (aluMult b c).toNat = b.toNat * c.toNat % 32768 := by
  simp only [aluMult, BitVec.toNat_ofNat, Config.valueMod]
  omega

theorem aluMod_toNat (b c : Word) : (aluMod b c).toNat = b.toNat % c.toNat := by
  rw [aluMod, BitVec.toNat_ofNat, Nat.mod_eq_of_lt (lt_of_le_of_lt (Nat.mod_le _ _) b.isLt)]

/-- Masking with 0x7FFF reduces modulo 32768. -/
theorem and_mask_toNat (w : Word) : (w &&& 0x7FFF).toNat = w.toNat % 32768 := by
  rw [BitVec.toNat_and]
  exact Nat.and_two_pow_sub_one_eq_mod w.toNat 15

theorem aluNot_toNat (b : Word) : (aluNot b).toNat = 32767 - b.toNat % 32768 := by
  rw [aluNot, and_mask_toNat, BitVec.toNat_not]
  omega

/-! ### The instructions (R81 to R88) -/

/-- Settles O16: `condEq` is the 1 or 0 of the comparison. -/
theorem eqWritesOneOrZero : Obligations.EqWritesOneOrZero :=
  threeOperandRule_of_exec (fun _ _ _ => rfl) (fun _ _ _ => rfl) fun a b c s => by
    simp only [exec_eq, condEq, boolWord_decide]

/-- Settles O17: `condGt` is the 1 or 0 of the comparison. -/
theorem gtComparesUnsigned : Obligations.GtComparesUnsigned :=
  threeOperandRule_of_exec (fun _ _ _ => rfl) (fun _ _ _ => rfl) fun a b c s => by
    simp only [exec_gt, condGt, boolWord_decide, gt_iff_lt]

/-- Settles O18: the shape target, value, value with the sum. -/
theorem addIsModulo32768 : Obligations.AddIsModulo32768 :=
  threeOperandRule_of_exec (fun _ _ _ => rfl) (fun _ _ _ => rfl) fun a b c _ => exec_add a b c

/-- Settles O19: the shape target, value, value with the product. -/
theorem multIsModulo32768 : Obligations.MultIsModulo32768 :=
  threeOperandRule_of_exec (fun _ _ _ => rfl) (fun _ _ _ => rfl) fun a b c _ => exec_mult a b c

/-- Settles O20: after the four fetches the divisor decides; division with remainder gives the quotient. -/
theorem modIsTheUnsignedRemainder : Obligations.ModIsTheUnsignedRemainder := by
  refine ⟨fun _ _ _ => rfl, fun a b c => ?_, fun s r b c vb vc hpc hb hc => ?_⟩
  · exact faultsInOrder_of_threeOperands rfl fun _ => exec_mod a b c
  · rw [exec_mod, threeOperands_ok_foldl _ _ _ hpc hb hc, State.foldl_fetched]
    refine ⟨fun hne => ⟨aluMod vb vc, ⟨?_, vb.toNat / vc.toNat, ?_⟩, ?_⟩, fun h0 => ?_⟩
    · rw [aluMod_toNat]
      exact Nat.mod_lt _ (Nat.pos_of_ne_zero hne)
    · rw [aluMod_toNat]
      exact (Nat.div_add_mod' _ _).symm
    · rw [if_neg fun h => hne (congrArg BitVec.toNat h)]
      rfl
    · rw [if_pos (BitVec.eq_of_toNat_eq h0)]
      rfl

/-- Settles O21: the shape target, value, value with the bitwise and. -/
theorem andIsBitwise : Obligations.AndIsBitwise :=
  threeOperandRule_of_exec (fun _ _ _ => rfl) (fun _ _ _ => rfl) fun a b c _ => exec_and a b c

/-- Settles O22: the shape target, value, value with the bitwise or. -/
theorem orIsBitwise : Obligations.OrIsBitwise :=
  threeOperandRule_of_exec (fun _ _ _ => rfl) (fun _ _ _ => rfl) fun a b c _ => exec_or a b c

/-- Settles O23: after its three fetches `not` only writes the register, and its two formulas are one number. -/
theorem notIsThe15BitComplement : Obligations.NotIsThe15BitComplement := by
  refine ⟨fun _ _ => rfl, fun a b => ?_, fun s r b vb hpc hb => ⟨?_, ?_⟩⟩
  · exact faultsInOrder_of_scan (fun _ => exec_not a b) fun _ => .target fun _ => .value fun _ => .nil _
  · apply BitVec.eq_of_toNat_eq
    rw [← aluNot, aluNot_toNat, BitVec.toNat_ofNat]
    omega
  · rw [exec_not, targetValue_ok 14 r (fun r vb s => .next (s.writeReg r (aluNot vb))) hpc hb, State.foldl_fetched]
    rfl

/-! ### Canonical results (R89) -/

theorem boolWord_le_one (b : Bool) : (boolWord b).toNat ≤ 1 := by
  cases b <;> decide

/-- A word is above 32767 exactly when its bit 15 is set (R7). -/
theorem le_toNat_iff_getLsbD_fifteen (w : Word) : 32768 ≤ w.toNat ↔ w.getLsbD 15 = true := by
  rw [getLsbD_fifteen, decide_eq_true_eq]

/-- Settles O24: what is 1 or 0, reduced or masked is small; a remainder is below its divisor and at most its dividend; and
of `and` and `or` bit 15 alone decides. -/
theorem aluResultsAreCanonical : Obligations.AluResultsAreCanonical := by
  intro b c
  have hmod : c ≠ 0 → (aluMod b c).toNat < c.toNat := fun hc => by
    rw [aluMod_toNat]
    exact Nat.mod_lt _ (Nat.pos_of_ne_zero fun h => hc (BitVec.eq_of_toNat_eq h))
  refine ⟨boolWord_le_one _, boolWord_le_one _, Nat.le_of_lt_succ (aluAdd_canonical b c),
    Nat.le_of_lt_succ (aluMult_canonical b c), Nat.le_of_lt_succ (aluNot_canonical b), hmod,
    fun ⟨hb, hc⟩ => ?_, fun h hc => ⟨?_, lt_of_le_of_lt h (hmod hc)⟩, ?_, ?_⟩
  · have hb := Nat.lt_succ_of_le hb
    exact ⟨Nat.le_of_lt_succ (aluAnd_canonical c hb), Nat.le_of_lt_succ (aluOr_canonical hb (Nat.lt_succ_of_le hc))⟩
  · rw [aluMod_toNat] at h
    exact h.trans (Nat.mod_le _ _)
  · simp only [le_toNat_iff_getLsbD_fifteen, aluAnd, BitVec.getLsbD_and, Bool.and_eq_true]
  · simp only [le_toNat_iff_getLsbD_fifteen, aluOr, BitVec.getLsbD_or, Bool.or_eq_true]

/-! ### Laws and idioms (R56, R89) -/

theorem aluAdd_comm (b c : Word) : aluAdd b c = aluAdd c b := by
  rw [aluAdd, aluAdd, Nat.add_comm]

theorem aluMult_comm (b c : Word) : aluMult b c = aluMult c b := by
  rw [aluMult, aluMult, Nat.mul_comm]

theorem aluAdd_assoc (b c d : Word) : aluAdd (aluAdd b c) d = aluAdd b (aluAdd c d) := by
  apply BitVec.eq_of_toNat_eq
  simp only [aluAdd_toNat, Nat.mod_add_mod, Nat.add_mod_mod, Nat.add_assoc]

theorem aluMult_assoc (b c d : Word) : aluMult (aluMult b c) d = aluMult b (aluMult c d) := by
  apply BitVec.eq_of_toNat_eq
  simp only [aluMult_toNat, Nat.mod_mul_mod, Nat.mul_mod_mod, Nat.mul_assoc]

theorem aluMult_aluAdd (b c d : Word) : aluMult b (aluAdd c d) = aluAdd (aluMult b c) (aluMult b d) := by
  apply BitVec.eq_of_toNat_eq
  simp only [aluMult_toNat, aluAdd_toNat, Nat.mul_mod_mod, Nat.mod_add_mod, Nat.add_mod_mod, Nat.mul_add]

theorem aluNot_aluNot {b : Word} (hb : b.Canonical) : aluNot (aluNot b) = b := by
  apply BitVec.eq_of_toNat_eq
  rw [aluNot_toNat, aluNot_toNat]
  omega

/-- The mask of `not` changes nothing where the other side of an `and` is canonical. -/
theorem aluAnd_aluNot (b : Word) {c : Word} (hc : c.Canonical) : aluAnd (aluNot b) c = ~~~b &&& c := by
  have hmask : c &&& 0x7FFF = c := BitVec.eq_of_toNat_eq (by rw [and_mask_toNat, Nat.mod_eq_of_lt hc])
  rw [aluAnd, aluNot, BitVec.and_assoc, BitVec.and_comm 0x7FFF, hmask]

/-- Exclusive-or: not both, and at least one. -/
theorem nand_and_or_eq_xor (b c : Word) : ~~~(b &&& c) &&& (b ||| c) = b ^^^ c := by
  have hbit : ∀ x y : Bool, (!(x && y) && (x || y)) = (x ^^ y) := by decide
  ext i
  simp only [BitVec.getElem_and, BitVec.getElem_not, BitVec.getElem_or, BitVec.getElem_xor, hbit]

/-- Settles O25: the laws are those of numbers reduced modulo 32768; the idioms are read off the functions as numbers. -/
theorem aluLawsAndIdioms : Obligations.AluLawsAndIdioms := by
  intro b c d
  refine ⟨aluAdd_comm b c, aluMult_comm b c, aluAdd_assoc b c d, aluMult_assoc b c d, aluMult_aluAdd b c d,
    fun ⟨_, _, hc⟩ => ?_, fun hb => ⟨?_, aluNot_aluNot (Nat.lt_succ_of_le hb)⟩, fun ⟨hb, hc⟩ => ?_⟩
  · rw [aluAdd_toNat, BitVec.toNat_ofNat]
    omega
  · rw [aluAdd_toNat, aluNot_toNat, show (1 : Word).toNat = 1 from rfl]
    omega
  · rw [aluAnd_aluNot _ (aluOr_canonical (Nat.lt_succ_of_le hb) (Nat.lt_succ_of_le hc))]
    exact nand_and_or_eq_xor b c

end Sys2Proof.Machine
end

section
/-! Stack and control flow (43_stack_control.md R95 to R103): the laws of the stack, the rule each instruction keeps, and the two laws that join them. -/

namespace Sys2Proof.Machine

variable {s t : State}

/-! ### The stack (R95) -/

@[simp] theorem State.popped?_push (s : State) (v : Word) : (s.push v).popped? = some (v, s) := rfl

theorem State.popped?_of_cons {v : Word} {rest : List Word} (h : s.stack = v :: rest) :
    s.popped? = some (v, { s with stack := rest }) :=
  (State.popped?_eq_some s v _).2 ⟨rest, h, rfl⟩

/-- Pushing back what was popped undoes the pop. -/
theorem State.push_of_popped? {v : Word} (h : s.popped? = some (v, t)) : s.stack = v :: t.stack ∧ t.push v = s := by
  obtain ⟨rest, hstack, rfl⟩ := (State.popped?_eq_some s v t).1 h
  exact ⟨hstack, by rw [State.push, ← hstack]⟩

/-- Settles O9: a pop answers the head of the stack and the state without it. -/
theorem stackPrimitives : Obligations.StackPrimitives := by
  refine fun s v => ⟨s.push_stack v, s.popped?_push v, ?_, fun _ _ => State.push_of_popped?⟩
  rw [State.popped?_eq_none, List.length_eq_zero_iff]

theorem State.pushAll_concat (s : State) (vs : List Word) (v : Word) : s.pushAll (vs ++ [v]) = (s.pushAll vs).push v :=
  List.foldl_concat State.push s v vs

theorem State.popMany_push {vs : List Word} {n : Nat} (v : Word) (h : s.popMany n = some (vs, t)) :
    (s.push v).popMany (n + 1) = some (v :: vs, t) := by
  simp only [State.popMany, State.popped?_push, h]

/-- As many pops as pushes give the values in reverse order, and the state back (R103). -/
theorem State.popMany_pushAll (s : State) (vs : List Word) :
    (s.pushAll vs).popMany vs.length = some (vs.reverse, s) := by
  induction vs using List.reverseRecOn with
  | nil => rfl
  | append_singleton vs v ih =>
    rw [State.pushAll_concat, List.length_append, List.reverse_concat]
    exact State.popMany_push v ih

/-! ### The shapes of one value, two values and one target -/

/-- The shape of one value goes on when the two words are legal and inside memory; what is done next may use the state
right after the opcode fetch, as `call` does (R101). -/
theorem value_ok (op : Word) {a : Operand} {va : Word} (k : State → Word → State → Result)
    (hpc : s.pc.toNat + 2 ≤ 32768) (ha : operandValue? a s = some va) :
    (withFetch op s fun s => withValue a s (k s)) = k (s.fetched op) va ([op, a.toWord].foldl State.fetched s) := by
  have h1 : s.pc.toNat < 32768 := by omega
  have e1 := State.fetched_pc_toNat op h1
  rw [withFetch_ok _ _ h1, withValue_ok _ _ va (by omega) (by simpa using ha)]
  rfl

/-- The shape of two values goes on when the three words are legal and inside memory. -/
theorem valueValue_ok (op : Word) {a b : Operand} {va vb : Word} (k : Word → Word → State → Result)
    (hpc : s.pc.toNat + 3 ≤ 32768) (ha : operandValue? a s = some va) (hb : operandValue? b s = some vb) :
    (withFetch op s fun s => withValue a s fun va s => withValue b s (k va)) =
      k va vb ([op, a.toWord, b.toWord].foldl State.fetched s) := by
  have h1 : s.pc.toNat < 32768 := by omega
  have e1 := State.fetched_pc_toNat op h1
  have h2 : (s.fetched op).pc.toNat < 32768 := by omega
  have e2 := State.fetched_pc_toNat a.toWord h2
  rw [withFetch_ok _ _ h1, withValue_ok _ _ va h2 (by simpa using ha),
    withValue_ok _ _ vb (by omega) (by simpa using hb)]
  rfl

/-- The shape of one target goes on when the two words are legal and inside memory. -/
theorem target_ok (op : Word) (r : RegId) (k : RegId → State → Result) (hpc : s.pc.toNat + 2 ≤ 32768) :
    (withFetch op s fun s => withTarget (.register r) s k) =
      k r ([op, (Operand.register r).toWord].foldl State.fetched s) := by
  have h1 : s.pc.toNat < 32768 := by omega
  have e1 := State.fetched_pc_toNat op h1
  rw [withFetch_ok _ _ h1, withTarget_ok _ _ (by omega)]
  rfl

/-! ### `push` and `pop` (R96, R97) -/

/-- Settles O26: after its two fetches `push` only adds its value to the stack. -/
theorem pushAddsItsValue : Obligations.PushAddsItsValue := by
  refine ⟨fun _ => rfl, fun a => ?_, fun s a va hpc ha => ?_⟩
  · exact faultsInOrder_of_scan (fun _ => exec_push a) fun _ => .value fun _ => .nil _
  · rw [exec_push, value_ok 2 _ hpc ha, State.foldl_fetched]
    rfl

/-- Settles O27: the stack is looked at after the two fetches, and what the pop answers is what the two clauses split on. -/
theorem popTakesTheTopOrHaltsGracefully : Obligations.PopTakesTheTopOrHaltsGracefully := by
  refine ⟨fun _ => rfl, fun a => ?_, fun s r hpc => ?_⟩
  · exact faultsInOrder_of_scan (fun _ => exec_pop a) fun _ => .target fun _ => .nil _
  · have hkept := State.foldl_fetched_stack [3, (Operand.register r).toWord] s
    rw [exec_pop, target_ok 3 r _ hpc]
    refine ⟨fun v rest hstack => ?_, fun hstack => ?_⟩
    · rw [State.popped?_of_cons (hkept.trans hstack), State.foldl_fetched]
      rfl
    · rw [(State.popped?_eq_none _).2 (hkept.trans hstack), State.foldl_fetched]
      rfl

/-! ### `jmp`, `jt` and `jf` (R98 to R100) -/

/-- Settles O28: after its two fetches `jmp` only sets pc. -/
theorem jmpSetsPc : Obligations.JmpSetsPc := by
  refine ⟨fun _ => rfl, fun a => ?_, fun s a va hpc ha => ?_⟩
  · exact faultsInOrder_of_scan (fun _ => exec_jmp a) fun _ => .value fun _ => .nil _
  · rw [exec_jmp, value_ok 6 _ hpc ha, State.foldl_fetched]
    rfl

/-- An instruction that resolves two values, and then jumps to the second where `cond` holds of the first and else does
nothing, keeps the rule of a conditional jump. -/
theorem conditionalJumpRule_of_exec {op : Word} {mk : Operand → Operand → Instr} {cond : Word → Prop}
    {f : Word → Word → State → State} (hop : ∀ a b, (mk a b).opcode = op)
    (hops : ∀ a b, (mk a b).kinds.zip (mk a b).operands = [(.value, a), (.value, b)])
    (hexec : ∀ a b s, exec (mk a b) s =
      withFetch op s fun s => withValue a s fun va s => withValue b s fun vb s => .next (f va vb s))
    (htaken : ∀ va vb s, cond va → f va vb s = s.jump vb) (huntaken : ∀ va vb s, ¬ cond va → f va vb s = s) :
    ConditionalJumpRule op mk cond := by
  refine ⟨fun a b => ?_, fun a b => ?_, fun s a b va vb hpc ha hb => ?_⟩
  · rw [encode_eq_opcode_cons_words, hop, hops]
    rfl
  · refine faultsInOrder_of_scan (by simpa only [hop] using hexec a b) fun s => ?_
    rw [hops]
    exact .value fun _ => .value fun _ => .nil _
  · rw [hexec, valueValue_ok op _ hpc ha hb, State.foldl_fetched]
    refine ⟨fun hc => ?_, fun hc => ?_⟩
    · rw [htaken _ _ _ hc]
      rfl
    · rw [huntaken _ _ _ hc]
      rfl

@[simp] theorem isNonzero_iff (v : Word) : isNonzero v = true ↔ v ≠ 0 := decide_eq_true_iff

/-- Settles O29: the test of `jt` is that its first value is not 0. -/
theorem jtJumpsOnNonzero : Obligations.JtJumpsOnNonzero :=
  conditionalJumpRule_of_exec (fun _ _ => rfl) (fun _ _ => rfl) (fun a b _ => exec_jt a b)
    (fun va _ _ hc => if_pos ((isNonzero_iff va).2 hc)) (fun va _ _ hc => if_neg (mt (isNonzero_iff va).1 hc))

/-- Settles O30: `jf` has the test of `jt`, its two outcomes exchanged. -/
theorem jfJumpsOnZero : Obligations.JfJumpsOnZero :=
  conditionalJumpRule_of_exec (fun _ _ => rfl) (fun _ _ => rfl) (fun a b _ => exec_jf a b)
    (fun va _ _ hc => if_neg fun h => (isNonzero_iff va).1 h hc) (fun va _ _ hc => if_pos ((isNonzero_iff va).2 hc))

/-! ### `call` and `ret` (R101 to R103) -/

/-- Settles O31: the address noted after the opcode fetch is p + 1 + 1, and it is pushed after the operand is resolved. -/
theorem callPushesTheNextAddress : Obligations.CallPushesTheNextAddress := by
  refine ⟨fun _ => rfl, fun a => ?_, fun s a va hpc ha => ?_⟩
  · exact faultsInOrder_of_scan (fun _ => exec_call a) fun _ => .value fun _ => .nil _
  · have hra : (s.fetched 17).pc + 1 = s.pc + 2 := BitVec.add_assoc s.pc 1 1
    rw [exec_call, value_ok 17 _ hpc ha, State.foldl_fetched, hra]
    rfl

/-- Settles O32: after the opcode fetch, what the pop answers is what the two clauses split on. -/
theorem retPopsPcOrHaltsGracefully : Obligations.RetPopsPcOrHaltsGracefully := by
  refine ⟨rfl, faultsInOrder_of_scan (fun _ => exec_ret) fun _ => .nil _, fun s hpc => ?_⟩
  rw [exec_ret, withFetch_ok _ _ (Nat.lt_of_succ_le hpc)]
  refine ⟨fun v rest hstack => ?_, fun hstack => ?_⟩
  · rw [State.popped?_of_cons ((s.fetched_stack 18).trans hstack)]
    rfl
  · rw [(State.popped?_eq_none _).2 ((s.fetched_stack 18).trans hstack)]
    rfl

/-- Settles O10: the rule of `call` says what the stack of the later state is, and with that top the rule of `ret` applies. -/
theorem pushPopAndCallReturnLaws : Obligations.PushPopAndCallReturnLaws := by
  refine ⟨State.popMany_pushAll, fun s t u a v hpc ha hcall hstack hu => ?_⟩
  obtain ⟨-, -, callRule⟩ := callPushesTheNextAddress
  obtain ⟨-, -, retRule⟩ := retPopsPcOrHaltsGracefully
  obtain ⟨retToTop, -⟩ := retRule u hu
  rw [callRule s a v hpc ha] at hcall
  cases hcall
  exact ⟨_, retToTop _ _ hstack, rfl, rfl⟩

end Sys2Proof.Machine
end

section
/-! System and character I/O (44_io_system.md R110 to R115): the rules of `halt`, `noop`, `out` and `in`, and what a delivered character changes. -/

namespace Sys2Proof.Machine

variable {s : State}

/-! ### `halt`, `noop` and `out` (R110 to R112) -/

/-- Settles O33: after its one fetch `halt` only sets the status. -/
theorem haltEndsTheRun : Obligations.HaltEndsTheRun := by
  refine ⟨rfl, faultsInOrder_of_scan (fun _ => exec_halt) fun _ => .nil _, fun s hpc => ?_⟩
  rw [exec_halt, withFetch_ok _ _ (Nat.lt_of_succ_le hpc)]
  rfl

/-- Settles O34: `noop` is its one fetch. -/
theorem noopOnlyAdvancesPc : Obligations.NoopOnlyAdvancesPc := by
  refine ⟨rfl, faultsInOrder_of_scan (fun _ => exec_noop) fun _ => .nil _, fun s hpc => ?_⟩
  rw [exec_noop, withFetch_ok _ _ (Nat.lt_of_succ_le hpc)]
  rfl

/-- Settles O35: after its two fetches `out` only adds its value to the output history. -/
theorem outEmitsTheWholeCode : Obligations.OutEmitsTheWholeCode := by
  refine ⟨fun _ => rfl, fun a => ?_, fun s a va hpc ha => ?_⟩
  · exact faultsInOrder_of_scan (fun _ => exec_out a) fun _ => .value fun _ => .nil _
  · rw [exec_out, value_ok 19 _ hpc ha, State.foldl_fetched]
    rfl

/-! ### `in` (R113, R115) -/

theorem literal_toNat (v : BitVec 15) : (v.setWidth 16 : Word).toNat = v.toNat :=
  BitVec.toNat_setWidth_of_le (by decide)

/-- `in` with no character delivered, its opcode word in memory: nothing changes (R69). -/
theorem exec_inp_waits (a : Operand) (hin : s.input = []) (hpc : s.pc.toNat < 32768) : exec (.inp a) s = .next s := by
  rw [exec_inp_of_nil a hin, withFetch_ok _ _ hpc]

/-- `in` with a character to take and a fault at its destination word, in the fetch of that word or in what it says: the
fault is the one of R130, and the character is gone (D10). -/
theorem exec_inp_faults {a : Operand} {ch : Byte} {rest : List Byte} {f : FaultReport} (hin : s.input = ch :: rest)
    (hpc : s.pc.toNat < 32768) (hf : operandFault? (.inp a) s.pc = some f) :
    exec (.inp a) s = .next { s.afterFault (.inp a) f with input := rest } := by
  rcases operandFault?_cases _ f hf with ⟨hbad, -⟩ | ⟨-, hscan⟩
  · omega
  · by_cases htop : 32768 ≤ s.pc.toNat + 1
    · have hnext := State.fetched_pc_toNat 20 hpc
      cases (if_pos htop).symm.trans hscan
      rw [exec_inp_of_cons a hin, withFetch_ok _ _ hpc,
        withFetch_bad (s := { s.fetched 20 with input := rest }) _ _ (hnext ▸ htop), ofNat_eq_pc _ hnext]
      rfl
    · rw [exec_inp_ok a (by omega) hin, State.foldl_fetched]
      replace hscan := (if_neg htop).symm.trans hscan
      cases a with
      | literal v => cases hscan
      | register r => cases hscan
      | invalid w =>
        cases hscan
        rfl

/-- Settles O36: with its words in memory and a character to take, `in` is its write, to a register or to a cell; what it
does with a faulting destination, with no character and with a bad pc are cases of their own. -/
theorem inTakesOneCharacter : Obligations.InTakesOneCharacter := by
  refine ⟨fun _ => rfl, fun s ch rest hin hpc => ⟨fun r => ?_, fun v => ?_⟩,
    fun s a ch rest f hin hpc hf => exec_inp_faults hin hpc hf, fun s a hin hpc => exec_inp_waits a hin hpc,
    fun s a hbad => (exec_inp a).trans (withFetch_bad 20 _ hbad)⟩
  · rw [exec_inp_ok _ hpc hin, State.foldl_fetched]
    rfl
  · refine ⟨s.mem.writeCell v.toNat (ch.setWidth 16), ?_, Memory.readCell_writeCell_same _ _ _,
      fun c hc => Memory.readCell_writeCell_other _ _ c _ hc⟩
    rw [exec_inp_ok _ hpc hin, State.foldl_fetched, writeDestination, memWrite_ok _ _ (literal_canonical v),
      State.writeMem, literal_toNat]
    rfl

/-! ### Delivery of a character (R21, R115, R149) -/

theorem State.takeChar?_of_cons {ch : Byte} {rest : List Byte} (h : s.input = ch :: rest) :
    s.takeChar? = some (ch.setWidth 16, { s with input := rest }) :=
  (State.takeChar?_eq_some s _ _).2 ⟨ch, rest, h, rfl, rfl⟩

/-- Where none is waiting, the character delivered is the next one. -/
theorem State.deliver_input_of_nil (ch : Byte) (h : s.input = []) : (s.deliver ch).input = [ch] := by
  rw [State.deliver_input, h, List.nil_append]

/-- Where one is waiting, it stays the next one. -/
theorem State.deliver_input_of_cons (ch : Byte) {c : Byte} {rest : List Byte} (h : s.input = c :: rest) :
    (s.deliver ch).input = c :: (rest ++ [ch]) := by
  rw [State.deliver_input, h, List.cons_append]

/-- Delivering a character puts it behind the input sequence and nothing before the trace. -/
theorem State.extend_nil_singleton (s : State) (ch : Byte) : s.extend [] [ch] = s.deliver ch := rfl

/-- Settles O56: the front of the input sequence after a delivery says which character is taken next, and a delivery is an
extension of the state, with which every step commutes that does not wait. -/
theorem deliveredCharactersAreTakenInOrder : Obligations.DeliveredCharactersAreTakenInOrder := by
  refine ⟨fun _ _ => rfl, fun s ch hin => ?_, fun s ch c rest hin => ?_, fun s r ch hin hpc => ⟨?_, ?_⟩,
    fun s ch hwait => ?_⟩
  · rw [State.takeChar?_of_cons (State.deliver_input_of_nil ch hin), ← hin]
    rfl
  · rw [State.takeChar?_of_cons (State.deliver_input_of_cons ch hin)]
    rfl
  · exact exec_inp_waits _ hin (by omega)
  · exact ⟨_, exec_inp_ok (.register r) hpc (State.deliver_input_of_nil ch hin), State.reg_writeReg_same _ _ _, rfl⟩
  · simpa only [State.extend_nil_singleton] using
      step_extend (s := s) (l := []) (d := [ch]) fun a hturn hin => absurd hin (hwait a hturn)

end Sys2Proof.Machine
end

section
/-! Exceptions (60_exceptions.md R120 to R129): how a run ends, the cause of each fatal status, and that faults are precise. -/

namespace Sys2Proof.Machine

variable {i : Instr} {s t : State} {k : Fatal} {ws : List Word}

/-! ### The step of a running machine (R63, R68) -/

/-- A running machine executes an instruction, or raises at its opcode word or at the fetch of it. -/
theorem step_running_cases (hs : s.status = .running) (h : step s = .next t) :
    (∃ i, nextTurn s = .execute i ∧ exec i s = .next t) ∨
    (∃ w, s.pc.toNat < 32768 ∧ decode s.fetchWindow = .error (.undefinedOpcode w) ∧
      t = (s.fetched w).faulted .undefinedOpcode w) ∨
    (32768 ≤ s.pc.toNat ∧ t = s.faulted .invalidAddress s.pc) := by
  rcases step_cases h with ⟨hr, -⟩ | ⟨-, -, i, -, -, hi, he⟩ | ⟨-, hp, w, hd, ht⟩ | ⟨-, hp, ht⟩ | ⟨hend, -⟩
  · simp [hs] at hr
  · exact .inl ⟨i, hi, he⟩
  · exact .inr (.inl ⟨w, hp, hd, ht⟩)
  · exact .inr (.inr ⟨hp, ht⟩)
  · simp [hs] at hend

/-- The word rejected as an opcode is the first one, and is above 21 (R46). -/
theorem decode_cons_undefined {op w : Word} (h : decode (op :: ws) = .error (.undefinedOpcode w)) :
    w = op ∧ 22 ≤ op.toNat := by
  rcases Nat.lt_or_ge op.toNat 22 with hop | hop
  · obtain ⟨n, -, -, hreads⟩ := decode_readsOperands (Nat.le_of_lt_succ hop)
    obtain ⟨htrunc, hok⟩ := hreads ws
    rcases Nat.lt_or_ge ws.length n with hlen | hlen
    · simp [htrunc hlen] at h
    · obtain ⟨j, hj, -⟩ := hok hlen
      simp [hj] at h
  · rw [decode_of_undefined ws hop] at h
    cases h
    exact ⟨rfl, hop⟩

/-- The words at pc are no instruction exactly when the cell there holds a word above 21 (R121). -/
theorem decode_fetchWindow_undefined_iff (hp : s.pc.toNat < 32768) (w : Word) :
    decode s.fetchWindow = .error (.undefinedOpcode w) ↔
      w = s.mem.readCell s.pc.toNat ∧ 22 ≤ (s.mem.readCell s.pc.toNat).toNat := by
  rw [← s.cellAt_of_lt hp]
  refine ⟨fun h => decode_cons_undefined h, ?_⟩
  rintro ⟨rfl, hop⟩
  exact decode_of_undefined _ hop

/-! ### Status and fault_value after an instruction (R120) -/

@[simp] theorem State.foldl_fetched_status (ws : List Word) (s : State) :
    (ws.foldl State.fetched s).status = s.status := by
  simp [State.foldl_fetched]

@[simp] theorem State.foldl_fetched_faultValue (ws : List Word) (s : State) :
    (ws.foldl State.fetched s).faultValue = s.faultValue := by
  simp [State.foldl_fetched]

theorem Effect.faultValue {u : State} (h : Effect i s u t) : t.faultValue = u.faultValue := by
  cases h <;> rfl

/-- A completed instruction leaves the status as it was, but for `halt` and for `pop` and `ret` on the empty stack. -/
theorem Completes.status_cases (h : Completes i s t) :
    t.status = s.status ∨ (t.status = .halted ∧ i = .halt) ∨
    (t.status = .haltedUnderflow ∧ s.stack = [] ∧ (i = .ret ∨ ∃ r, i = .pop (.register r))) := by
  obtain ⟨-, -, h⟩ := h
  have hwords := State.foldl_fetched_status (encode i) s
  cases i with
  | halt => exact .inr (.inl ⟨h ▸ rfl, rfl⟩)
  | pop a =>
    obtain ⟨r, rfl, ⟨v, rest, -, rfl⟩ | ⟨hstack, rfl⟩⟩ := h
    · exact .inl hwords
    · exact .inr (.inr ⟨rfl, hstack, .inr ⟨r, rfl⟩⟩)
  | ret =>
    obtain ⟨v, rest, -, rfl⟩ | ⟨hstack, rfl⟩ := h
    · exact .inl hwords
    · exact .inr (.inr ⟨rfl, hstack, .inl rfl⟩)
  | noop => exact .inl (h ▸ hwords)
  | set a b | not a b =>
    obtain ⟨r, v, -, -, rfl⟩ := h
    exact .inl hwords
  | rmem a b | wmem a b =>
    obtain ⟨_, _, -, -, -, rfl⟩ := h
    exact .inl hwords
  | eq a b c | gt a b c | add a b c | mult a b c | and a b c | or a b c =>
    obtain ⟨r, vb, vc, -, -, -, rfl⟩ := h
    exact .inl hwords
  | mod a b c =>
    obtain ⟨r, vb, vc, -, -, -, -, rfl⟩ := h
    exact .inl hwords
  | push a | jmp a | call a | out a =>
    obtain ⟨v, -, rfl⟩ := h
    exact .inl hwords
  | jt a b | jf a b =>
    obtain ⟨va, vb, -, -, rfl | rfl⟩ := h
    · exact .inl hwords
    · exact .inl hwords
  | inp a =>
    obtain ⟨ch, rest, -, ⟨r, -, rfl⟩ | ⟨v, -, rfl⟩⟩ := h
    · exact .inl hwords
    · exact .inl hwords

/-- A running machine has no fatal status after an instruction that completes. -/
theorem Completes.isFatal_eq_false (h : Completes i s t) (hs : s.status = .running) : t.status.isFatal = false := by
  rcases h.status_cases with e | ⟨e, -⟩ | ⟨e, -⟩ <;> simp [e, hs, Status.isFatal]

theorem WordsThenFault.isFatal (h : WordsThenFault i s t) : t.status.isFatal = true := by
  obtain ⟨ws, f, info, -, -, -, rfl, -⟩ := h
  rfl

theorem InputThenFault.status (h : InputThenFault i s t) : t.status = .fatal .invalidAddress := by
  obtain ⟨a, ch, rest, ws, info, -, -, -, -, -, rfl, -⟩ := h
  rfl

/-- In a running machine only a fault in reading words or in execution, or a fault of `in`, gives a fatal status. -/
theorem exec_fatal_cases (h : exec i s = .next t) (hs : s.status = .running) (ht : t.status.isFatal = true) :
    WordsThenFault i s t ∨ InputThenFault i s t := by
  rcases exec_next_cases i s t h with hf | hc | hf | ⟨a, -, -, rfl, -⟩
  · exact .inl hf
  · simp [hc.isFatal_eq_false hs] at ht
  · exact .inr hf
  · simp [hs, Status.isFatal] at ht

/-- An instruction that leaves no fatal status has completed, or is an `in` that waits. -/
theorem exec_not_fatal_cases (h : exec i s = .next t) (ht : t.status.isFatal = false) : Completes i s t ∨ t = s := by
  rcases exec_next_cases i s t h with hf | hc | hf | ⟨a, -, -, hwait, -⟩
  · simp [hf.isFatal] at ht
  · exact .inl hc
  · simp [hf.status, Status.isFatal] at ht
  · exact .inr hwait

/-- Settles O42: with no fatal status left, an instruction was executed, and it completed or waits. -/
theorem aRunEndsOnlyByATerminalCondition : Obligations.ARunEndsOnlyByATerminalCondition := by
  intro s t hs h
  cases ht : t.status.isFatal with
  | true => exact ⟨.inr (.inr (.inr rfl)), nofun⟩
  | false =>
    rcases step_running_cases hs h with ⟨i, hi, he⟩ | ⟨w, -, -, rfl⟩ | ⟨-, rfl⟩
    · rcases exec_not_fatal_cases he ht with hc | rfl
      · have hfv : t.faultValue = s.faultValue := by
          obtain ⟨-, heff⟩ := hc.effect
          rw [heff.faultValue, State.foldl_fetched_faultValue]
        refine ⟨?_, fun _ => hfv⟩
        rcases hc.status_cases with e | ⟨e, rfl⟩ | ⟨e, hstack, rfl | ⟨r, rfl⟩⟩
        · exact .inl (e.trans hs)
        · exact .inr (.inl ⟨e, hi⟩)
        · exact .inr (.inr (.inl ⟨e, hstack, .inl hi⟩))
        · exact .inr (.inr (.inl ⟨e, hstack, .inr ⟨r, hi⟩⟩))
      · exact ⟨.inl hs, fun _ => rfl⟩
    · cases ht
    · cases ht

/-! ### The cause of a fatal status (R121 to R125) -/

/-- Past words that all lie in memory, pc has not wrapped (R16). -/
theorem pc_after_words_toNat {p : Word} {n : Nat} (h : n = 0 ∨ p.toNat + n ≤ 32768) :
    (p + BitVec.ofNat 16 n).toNat = p.toNat + n := by
  have := p.isLt
  simp only [BitVec.toNat_add, BitVec.toNat_ofNat]
  omega

/-- What makes the step of a running machine from `s` to `t` raise each fatal condition, and what it records in fault_value. -/
inductive FatalCause (s t : State) : Fatal → Prop where
  /-- The opcode word is above 21 (R121). -/
  | opcode (hop : 22 ≤ (s.mem.readCell s.pc.toNat).toNat) (hv : t.faultValue = s.mem.readCell s.pc.toNat) :
      FatalCause s t .undefinedOpcode
  /-- A value operand word is invalid (R122). -/
  | value (i : Instr) (w : Word) (hi : nextTurn s = .execute i)
      (hw : (OperandKind.value, Operand.invalid w) ∈ i.kinds.zip i.operands) (hv : t.faultValue = w) :
      FatalCause s t .invalidInstruction
  /-- A target operand word names no register (R123). -/
  | target (i : Instr) (o : Operand) (hi : nextTurn s = .execute i)
      (ho : (OperandKind.target, o) ∈ i.kinds.zip i.operands) (hnone : operandTarget? o = none)
      (hv : t.faultValue = o.toWord) : FatalCause s t .invalidRegisterAddress
  /-- The opcode word is above the top of memory (R16, R124). -/
  | opcodeFetch (hbad : 32768 ≤ t.faultValue.toNat) (hv : t.faultValue = t.pc) (hpc : t.pc = s.pc) :
      FatalCause s t .invalidAddress
  /-- The instruction runs past the last cell (R124). -/
  | operandFetch (i : Instr) (hi : nextTurn s = .execute i) (hv : t.faultValue = t.pc) (hpc : t.pc = 32768)
      (hp : s.pc.toNat < 32768) (hlen : 32768 < s.pc.toNat + (encode i).length) : FatalCause s t .invalidAddress
  /-- The data address of `rmem`, `wmem` or `in` is above the top of memory (R124). -/
  | dataAccess (i : Instr) (hi : nextTurn s = .execute i) (hbad : 32768 ≤ t.faultValue.toNat)
      (ha : dataAddress? i s = some t.faultValue) (hpc : t.pc = s.pc + BitVec.ofNat 16 (encode i).length) :
      FatalCause s t .invalidAddress
  /-- The divisor of `mod` is 0 (R125). -/
  | divisor (a b c : Operand) (hi : nextTurn s = .execute (.mod a b c)) (hc : operandValue? c s = some 0)
      (hb : operandValue? b s = some t.faultValue) : FatalCause s t .moduloByZero

/-- An instruction that begins in memory and raises at the fetch of one of its words does so at the top of memory. -/
theorem FatalCause.operandFetch_of_words (hi : nextTurn s = .execute i) (hlen : ws.length < (encode i).length)
    (hmem : ws = [] ∨ s.pc.toNat + ws.length ≤ 32768) (hpc : t.pc = s.pc + BitVec.ofNat 16 ws.length)
    (hv : t.faultValue = t.pc) (hbad : 32768 ≤ t.faultValue.toNat) : FatalCause s t .invalidAddress := by
  obtain ⟨-, hp, -⟩ := nextTurn_execute i hi
  replace hmem := hmem.imp_left List.length_eq_zero_iff.2
  have hn : t.pc.toNat = s.pc.toNat + ws.length := hpc ▸ pc_after_words_toNat hmem
  rw [hv] at hbad
  have htop : t.pc.toNat = 32768 := by omega
  exact .operandFetch i hi hv (BitVec.eq_of_toNat_eq htop) hp (by omega)

/-- The fault that an instruction meets in reading its words or in executing has its cause. -/
theorem WordsThenFault.cause (h : WordsThenFault i s t) (hi : nextTurn s = .execute i) (ht : t.status = .fatal k) :
    FatalCause s t k := by
  obtain ⟨ws, f, info, -, -, hmem, rfl, hvalue, htarget, haddr, hdiv, hop⟩ := h
  obtain rfl : f = k := Status.fatal.inj ht
  cases f with
  | undefinedOpcode => exact absurd rfl hop
  | invalidInstruction =>
    obtain ⟨w, hw, hv⟩ := hvalue rfl
    exact .value i w hi hw hv
  | invalidRegisterAddress =>
    obtain ⟨o, ho, hnone, hv⟩ := htarget rfl
    exact .target i o hi ho hnone hv
  | invalidAddress =>
    obtain ⟨hbad, ⟨hlen, hv⟩ | ⟨rfl, ha⟩⟩ := haddr rfl
    · exact .operandFetch_of_words hi hlen hmem (State.foldl_fetched_pc ws s) hv hbad
    · exact .dataAccess i hi hbad ha (State.foldl_fetched_pc _ s)
  | moduloByZero =>
    obtain ⟨a, b, c, rfl, hc, hb⟩ := hdiv rfl
    exact .divisor a b c hi hc hb

/-- An instruction that is executed was decoded: it is well formed, and the words at pc begin with its own (R48, R63). -/
theorem wellFormed_and_encode_prefix (hi : nextTurn s = .execute i) : i.WellFormed ∧ encode i <+: s.fetchWindow := by
  obtain ⟨-, -, rest, hd⟩ := nextTurn_execute i hi
  obtain ⟨hwf, hwords⟩ := encodeOfDecodeIsTheWords _ _ _ hd
  exact ⟨hwf, rest, hwords.symm⟩

/-- An invalid operand word is above the register range (R48). -/
theorem le_of_invalid_wellFormed {w : Word} (h : (Operand.invalid w).wellFormed = true) : 32776 ≤ w.toNat :=
  of_decide_eq_true h

/-- The fault that `in` meets after taking its character has its cause. -/
theorem InputThenFault.cause (h : InputThenFault i s t) (hi : nextTurn s = .execute i) :
    FatalCause s t .invalidAddress := by
  obtain ⟨a, ch, rest, ws, info, rfl, -, -, -, hmem, rfl, ⟨rfl, rfl⟩ | ⟨hbad, hlen, hv⟩⟩ := h
  · obtain ⟨hwf, -⟩ := wellFormed_and_encode_prefix hi
    have hbad : 32776 ≤ info.toNat := le_of_invalid_wellFormed (List.all_eq_true.1 hwf _ List.mem_cons_self)
    exact .dataAccess _ hi (le_trans (by decide) hbad) rfl (State.foldl_fetched_pc _ s)
  · exact .operandFetch_of_words hi hlen (.inr hmem) (State.foldl_fetched_pc ws s) hv hbad

/-- A running machine gets a fatal status only from one of the causes. -/
theorem step_fatal_cause (hs : s.status = .running) (h : step s = .next t) (ht : t.status = .fatal k) :
    FatalCause s t k := by
  rcases step_running_cases hs h with ⟨i, hi, he⟩ | ⟨w, hp, hd, rfl⟩ | ⟨hp, rfl⟩
  · rcases exec_fatal_cases he hs (ht ▸ rfl) with hf | hf
    · exact hf.cause hi ht
    · cases ht.symm.trans hf.status
      exact hf.cause hi
  · obtain ⟨rfl, hop⟩ := (decode_fetchWindow_undefined_iff hp w).1 hd
    cases ht
    exact .opcode hop rfl
  · cases ht
    exact .opcodeFetch hp rfl rfl

/-- Settles O43: the causes of each status, one after the other. -/
theorem everyFatalStatusHasItsCause : Obligations.EveryFatalStatusHasItsCause := by
  intro s t hs h
  refine ⟨fun ht => ?_, fun ht => ?_, fun ht => ?_, fun ht => ?_, fun ht => ?_⟩
  · cases step_fatal_cause hs h ht with
    | opcode hop hv => exact ⟨hop, hv⟩
  · cases step_fatal_cause hs h ht with
    | value i w hi hw hv => exact ⟨i, w, hi, hw, hv⟩
  · cases step_fatal_cause hs h ht with
    | target i o hi ho hnone hv => exact ⟨i, o, hi, ho, hnone, hv⟩
  · cases step_fatal_cause hs h ht with
    | opcodeFetch hbad hv hpc => exact ⟨hbad, .inl ⟨hv, hpc⟩⟩
    | operandFetch i hi hv hpc hp hlen =>
      have hbad : 32768 ≤ t.faultValue.toNat := by rw [hv, hpc]; decide
      exact ⟨hbad, .inr (.inl ⟨hv, hpc, hp, i, hi, hlen⟩)⟩
    | dataAccess i hi hbad ha hpc => exact ⟨hbad, .inr (.inr ⟨i, hi, ha, hpc⟩)⟩
  · cases step_fatal_cause hs h ht with
    | divisor a b c hi hc hb => exact ⟨a, b, c, hi, hc, hb⟩

/-- Settles O38: a word above 21 is rejected by the decoder, and is the only cause of the status. -/
theorem undefinedOpcodeIsAbove21 : Obligations.UndefinedOpcodeIsAbove21 := by
  intro s hs hp
  refine ⟨fun hop => ?_, fun hle t h ht => ?_⟩
  · rw [step_of_undefined hs hp ((decode_fetchWindow_undefined_iff hp _).2 ⟨rfl, hop⟩)]
    rfl
  · cases step_fatal_cause hs h ht with
    | opcode hop _ => omega

/-! ### Faults are precise (R128, R129) -/

/-- `t` stands after the fetch of `ws`, the first words at pc, each in a cell that exists. -/
structure FetchedWords (s t : State) (ws : List Word) : Prop where
  isPrefix : ws <+: s.fetchWindow
  inMemory : ws = [] ∨ s.pc.toNat + ws.length ≤ 32768
  pc : t.pc = s.pc + BitVec.ofNat 16 ws.length
  trace : t.trace = s.trace ++ fetchEvents s.pc ws

/-- First words of the window that lie in memory are the cells from pc on. -/
theorem eq_cellsFromPc (hpre : ws <+: s.fetchWindow) (hmem : ws = [] ∨ s.pc.toNat + ws.length ≤ 32768) :
    ws = cellsFromPc s ws.length := by
  refine List.ext_getElem (by simp [cellsFromPc]) fun n hn _ => ?_
  have hfour : ws.length ≤ 4 := hpre.length_le
  have hcell : s.pc.toNat + n < 32768 := by
    rcases hmem with rfl | hmem
    · cases hn
    · omega
  have hword : some ws[n] = some (s.mem.readCell (s.pc.toNat + n)) := by
    rw [← s.cellAt_of_lt hcell, ← s.fetchWindow_getElem? (by omega), List.prefix_iff_getElem?.1 hpre n hn]
  simpa [cellsFromPc] using hword

/-- The words fetched are cells from pc on, at most four, and pc and the trace have passed them. -/
theorem FetchedWords.cells (h : FetchedWords s t ws) :
    ∃ n, n ≤ 4 ∧ (n = 0 ∨ s.pc.toNat + n ≤ 32768) ∧ t.pc.toNat = s.pc.toNat + n ∧
      t.trace = s.trace ++ fetchEvents s.pc (cellsFromPc s n) := by
  have hmem := h.inMemory.imp_left List.length_eq_zero_iff.2
  refine ⟨ws.length, h.isPrefix.length_le, hmem, ?_, ?_⟩
  · rw [h.pc, pc_after_words_toNat hmem]
  · rw [← eq_cellsFromPc h.isPrefix h.inMemory, h.trace]

/-- A fault in reading words or in execution leaves pc and the trace after first words of the instruction. -/
theorem WordsThenFault.fetchedWords (h : WordsThenFault i s t) (hw : encode i <+: s.fetchWindow) :
    ∃ ws, FetchedWords s t ws := by
  obtain ⟨ws, f, info, hpre, -, hmem, rfl, -⟩ := h
  exact ⟨ws, hpre.trans hw, hmem, State.foldl_fetched_pc ws s, State.foldl_fetched_trace ws s⟩

/-- So does a fault of `in` after taking its character. -/
theorem InputThenFault.fetchedWords (h : InputThenFault i s t) (hw : encode i <+: s.fetchWindow) :
    ∃ ws, FetchedWords s t ws := by
  obtain ⟨a, ch, rest, ws, info, -, -, hpre, -, hmem, rfl, -⟩ := h
  exact ⟨ws, hpre.trans hw, .inr hmem, State.foldl_fetched_pc ws s, State.foldl_fetched_trace ws s⟩

/-- Settles O44: an instruction that faults stops short, and what is raised before one is executed writes only the status,
fault_value, pc and the trace. -/
theorem faultsArePrecise : Obligations.FaultsArePrecise := by
  intro s t hs h ht
  rcases step_running_cases hs h with ⟨i, hi, he⟩ | ⟨w, hp, hd, rfl⟩ | ⟨hp, rfl⟩
  · obtain ⟨-, hw⟩ := wellFormed_and_encode_prefix hi
    obtain ⟨hstop, ws, hws⟩ : StopsShort i s t ∧ ∃ ws, FetchedWords s t ws := by
      rcases exec_fatal_cases he hs ht with hf | hf
      · exact ⟨hf.stopsShort, hf.fetchedWords hw⟩
      · exact ⟨hf.stopsShort, hf.fetchedWords hw⟩
    exact ⟨hstop.x, hstop.mem, hstop.stack, hstop.output,
      hstop.input.imp_right fun ⟨a, ch, hinp, hch⟩ => ⟨a, ch, hinp ▸ hi, hch⟩, hws.cells⟩
  · obtain ⟨rfl, -⟩ := decode_cons_undefined hd
    exact ⟨rfl, rfl, rfl, rfl, .inl rfl,
      FetchedWords.cells (ws := [s.cellAt s.pc.toNat]) ⟨⟨_, rfl⟩, .inr hp, rfl, rfl⟩⟩
  · exact ⟨rfl, rfl, rfl, rfl, .inl rfl,
      FetchedWords.cells (ws := []) ⟨List.nil_prefix, .inl rfl, (BitVec.add_zero _).symm, (List.append_nil _).symm⟩⟩

end Sys2Proof.Machine
end

section
/-! Load, Run and progress (70_reset_and_hazards.md R141, R142, R148): what the host's operations do, and that every step has a
next state, which differs from the state it began in but for an ended run and an `in` that waits. -/

namespace Sys2Proof.Machine

variable {i : Instr} {s t : State}

/-- Settles O41: the guard of Run is the status READY, in which the step settles in the state after Run. -/
theorem runStartsAReadyMachine : Obligations.RunStartsAReadyMachine := by
  refine fun s => ⟨fun hs => ⟨if_pos hs, ?_⟩, fun hs => if_neg hs⟩
  simp only [step, nextTurn_ready hs]

/-! ### Load (R24, R127, R141) -/

theorem State.load_of_le {image : List Word} (hs : s.status = .ready) (hlen : image.length ≤ 32768) :
    s.load image = .ok { s with mem := s.mem.loadFrom 0 image, pc := 0 } := by
  simp [State.load, hs, Config.memWords, Nat.not_lt.2 hlen]

theorem State.load_of_lt {image : List Word} (hs : s.status = .ready) (hlen : 32768 < image.length) :
    s.load image = .error .loadError := by
  simp [State.load, hs, Config.memWords, hlen]

theorem State.load_of_not_ready (image : List Word) (hs : s.status ≠ .ready) : s.load image = .error .notReady :=
  if_pos hs

/-- What Load leaves in each cell: the image's word where the image has one, else what was there. -/
theorem Memory.readCell_loadFrom_zero (m : Memory) (a : Nat) (image : List Word) :
    (m.loadFrom 0 image).readCell a = image[a]?.getD (m.readCell a) := by
  simp [Memory.readCell_loadFrom]

/-- Settles O54, by the three guards of Load and by what a load leaves in a cell of the image and in one past it. -/
theorem loadCopiesTheImage : Obligations.LoadCopiesTheImage := by
  intro s image
  refine ⟨fun hs hlen => ⟨s.mem.loadFrom 0 image, State.load_of_le hs hlen, fun a ha => ?_, fun a ha => ?_, fun hwf => ?_⟩,
    State.load_of_lt, State.load_of_not_ready image⟩
  · rw [Memory.readCell_loadFrom_zero, List.getElem?_eq_getElem ha, Option.getD_some]
  · rw [Memory.readCell_loadFrom_zero, List.getElem?_eq_none ha, Option.getD_none]
  · exact Memory.loadFrom_wf _ _ _ hwf (by omega)

/-! ### Every state has a next state (log 10)

Each shape an instruction is made of answers a next state when what is done next does. -/

/-- The outcome is a next state, and no refusal. -/
def Answers (r : Result) : Prop := ∃ t, r = .next t

theorem Answers.next (t : State) : Answers (.next t) := ⟨t, rfl⟩

theorem Answers.withFetch {k : State → Result} (w : Word) (hk : ∀ u, Answers (k u)) : Answers (withFetch w s k) := by
  rcases Nat.lt_or_ge s.pc.toNat 32768 with hp | hp
  · rw [withFetch_ok w k hp]
    exact hk _
  · rw [withFetch_bad w k hp]
    exact .next _

theorem Answers.withValue {k : Word → State → Result} (o : Operand) (hk : ∀ v u, Answers (k v u)) :
    Answers (withValue o s k) := by
  refine .withFetch o.toWord fun u => ?_
  cases operandValue? o u with
  | some v => exact hk v u
  | none => exact .next _

theorem Answers.withTarget {k : RegId → State → Result} (o : Operand) (hk : ∀ r u, Answers (k r u)) :
    Answers (withTarget o s k) := by
  refine .withFetch o.toWord fun u => ?_
  cases operandTarget? o with
  | some r => exact hk r u
  | none => exact .next _

theorem Answers.threeOperands {k : RegId → Word → Word → State → Result} (op : Word) (a b c : Operand)
    (hk : ∀ r v w u, Answers (k r v w u)) : Answers (threeOperands op a b c s k) :=
  .withFetch op fun _ => .withTarget a fun r _ => .withValue b fun v _ => .withValue c fun w u => hk r v w u

theorem Answers.memRead {k : Word → Result} (a : Word) (hk : ∀ v, Answers (k v)) : Answers (memRead a s k) := by
  rcases Nat.lt_or_ge a.toNat 32768 with ha | ha
  · rw [memRead_ok _ _ ha]
    exact hk _
  · rw [memRead_bad _ _ ha]
    exact .next _

theorem Answers.memWrite (a v : Word) : Answers (memWrite a v s) := by
  rcases Nat.lt_or_ge a.toNat 32768 with ha | ha
  · rw [memWrite_ok _ _ ha]
    exact .next _
  · rw [memWrite_bad _ _ ha]
    exact .next _

theorem Answers.writeDestination (a : Operand) (ch : Word) : Answers (writeDestination a ch s) := by
  cases a with
  | literal v => exact .memWrite _ _
  | register r => exact .next _
  | invalid w => exact .next _

/-- An instruction has a next state in every state: none is refused. -/
theorem exec_answers (i : Instr) (s : State) : Answers (exec i s) := by
  cases i with
  | halt | noop =>
    simp only [exec_halt, exec_noop]
    exact .withFetch _ fun _ => .next _
  | set a b | not a b =>
    simp only [exec_set, exec_not]
    exact .withFetch _ fun _ => .withTarget a fun _ _ => .withValue b fun _ _ => .next _
  | rmem a b =>
    rw [exec_rmem]
    exact .withFetch _ fun _ => .withTarget a fun _ _ => .withValue b fun v _ => .memRead v fun _ => .next _
  | wmem a b =>
    rw [exec_wmem]
    exact .withFetch _ fun _ => .withValue a fun va _ => .withValue b fun vb _ => .memWrite va vb
  | eq a b c | gt a b c | add a b c | mult a b c | and a b c | or a b c =>
    simp only [exec_eq, exec_gt, exec_add, exec_mult, exec_and, exec_or]
    exact .threeOperands _ a b c fun _ _ _ _ => .next _
  | mod a b c =>
    rw [exec_mod]
    refine .threeOperands _ a b c fun r vb vc u => ?_
    split
    · exact .next _
    · exact .next _
  | push a | jmp a | call a | out a =>
    simp only [exec_push, exec_jmp, exec_call, exec_out]
    exact .withFetch _ fun _ => .withValue a fun _ _ => .next _
  | jt a b | jf a b =>
    simp only [exec_jt, exec_jf]
    exact .withFetch _ fun _ => .withValue a fun _ _ => .withValue b fun _ _ => .next _
  | pop a =>
    rw [exec_pop]
    refine .withFetch _ fun _ => .withTarget a fun r u => ?_
    cases u.popped? with
    | some p => exact .next _
    | none => exact .next _
  | ret =>
    rw [exec_ret]
    refine .withFetch _ fun u => ?_
    cases u.popped? with
    | some p => exact .next _
    | none => exact .next _
  | inp a =>
    rw [exec_inp]
    refine .withFetch _ fun u => ?_
    cases u.takeChar? with
    | some p => exact .withFetch _ fun _ => .writeDestination a p.1
    | none => exact .next _

/-- A step executes an instruction or settles in a state. -/
theorem step_answers (s : State) : Answers (step s) := by
  unfold step
  cases nextTurn s with
  | execute i => exact exec_answers i s
  | settle t => exact .next t

/-! ### The steps that change nothing (R69, R148, log 3, log 4, log 6, log 7) -/

/-- The fetch of the opcode word stands in the trace of a completed instruction. -/
theorem Completes.ne (h : Completes i s t) : t ≠ s := by
  rintro rfl
  obtain ⟨-, heff⟩ := h.effect
  have htrace : t.trace = t.trace ++ fetchEvents t.pc (encode i) := by
    rw [← State.foldl_fetched_trace, ← heff.trace]
  simp [encode, fetchEvents] at htrace

/-- An instruction that leaves a running machine as it was is an `in` with no character to take. -/
theorem waits_of_exec_eq_self (h : exec i s = .next s) (hs : s.status = .running) :
    ∃ a, i = .inp a ∧ s.input = [] := by
  rcases exec_completes_or_stopsShort h with hc | hstop
  · exact absurd rfl hc.ne
  · exact hstop.reason.resolve_left (by simp [hs, Status.isFatal])

/-- A step that changes nothing is one of an ended run or of an `in` that waits (R148): any other step without an instruction
changes the status. -/
theorem terminal_or_waits_of_step_eq_self (h : step s = .next s) :
    s.status.terminal = true ∨ ∃ a, nextTurn s = .execute (.inp a) ∧ s.input = [] := by
  rcases step_cases h with ⟨hs, e⟩ | ⟨hs, -, i, -, -, hi, he⟩ | ⟨hs, -, w, -, e⟩ | ⟨hs, -, e⟩ | ⟨hend, -⟩
  · exact nomatch hs.symm.trans (congrArg State.status e)
  · obtain ⟨a, rfl, hin⟩ := waits_of_exec_eq_self he hs
    exact .inr ⟨a, hi, hin⟩
  · exact nomatch hs.symm.trans (congrArg State.status e)
  · exact nomatch hs.symm.trans (congrArg State.status e)
  · exact .inl ((Status.terminal_iff _).2 hend)

/-- A step at an `in` with no character delivered changes nothing (R69). -/
theorem step_inp_waits {a : Operand} (hi : nextTurn s = .execute (.inp a)) (hin : s.input = []) : step s = .next s := by
  obtain ⟨-, hp, -⟩ := nextTurn_execute _ hi
  rw [step, hi]
  exact exec_inp_waits a hin hp

/-- Settles O45: a next state by `step_answers`, and it is the same one by the two directions above. -/
theorem onlyInWaits : Obligations.OnlyInWaits := by
  intro s
  obtain ⟨t, h⟩ := step_answers s
  have hself : t = s ↔ step s = .next s := by rw [h, Host.Outcome.next.injEq]
  refine ⟨t, h, hself.trans ⟨terminal_or_waits_of_step_eq_self, ?_⟩⟩
  rintro (hend | ⟨a, hi, hin⟩)
  · exact terminalStatusIsAbsorbing s hend
  · exact step_inp_waits hi hin

end Sys2Proof.Machine
end
